-- ==== Sys2Proof/Word.lean ====
section
/-! DEFINITION. The word types of the block (spec/00_scope.md R14 to R16). Bit 0 is the least significant bit.
`+`, `*`, `^^^`, `&&&`, `|||`, `~~~`, `<<<` and `>>>` of `BitVec` are the operators of R16: they wrap modulo 2^64,
shifts fill with zeros, and a shift by 64 or more gives 0. -/

namespace Sys2Proof

/-- A `u64` of R14. -/
abbrev Word := BitVec 64

/-- One byte. -/
abbrev Byte := BitVec 8

/-- A transaction descriptor (30_encoding.md R58). -/
abbrev Desc := BitVec 16

end Sys2Proof
end

