-- ==== Sys2Proof/Config.lean ====
section
/-! DEFINITION. The parameters of an implementation (spec/00_scope.md R8 to R13) and the free values of the model.
The spec leaves every parameter OPEN (93_implementation_defined.md U1), so each is a constant without a body:
nothing proved of it can rest on a number. No parameter is state (10_state.md R44). -/

namespace Sys2Proof

/-- The three versions of the algorithm (00_scope.md R2, R8). -/
inductive Version where
  | v1
  | v2
  | v3
deriving DecidableEq, Repr, Inhabited

/-- The number `VERSION` of 00_scope.md R8. -/
def Version.number : Version → Nat
  | .v1 => 1
  | .v2 => 2
  | .v3 => 3

/-- One mixer step (00_scope.md R9). An amount is any natural number; a step takes it modulo 64 (R10). -/
inductive MixStep where
  /-- `XRR(r)`: xor with a right rotation. -/
  | xrr (r : Nat)
  /-- `XSR(r)`: xor with a logical right shift; admitted by the grammar only (90_conflicts.md C1). -/
  | xsr (r : Nat)
  /-- `MUL(c)`: multiplication by a 64-bit constant. -/
  | mul (c : Word)
deriving DecidableEq, Repr, Inhabited

/-- `MIX_PROG_v`: a finite non-empty list of steps (00_scope.md R9). -/
structure MixProg where
  /-- The first step, which every program has. -/
  first : MixStep
  /-- The steps after it. -/
  rest : List MixStep
deriving DecidableEq, Repr, Inhabited

/-- The steps in list order. -/
def MixProg.steps (p : MixProg) : List MixStep :=
  p.first :: p.rest

/-- The reference shape `[XRR r1, MUL C1, XRR r2, MUL C2, XRR r3]` (00_scope.md R9; 40_mixer.md R69). -/
def MixProg.reference (r1 : Nat) (c1 : Word) (r2 : Nat) (c2 : Word) (r3 : Nat) : MixProg :=
  ⟨.xrr r1, [.mul c1, .xrr r2, .mul c2, .xrr r3]⟩

/-- The per-version parameters (00_scope.md R9 to R12). -/
structure Params where
  /-- `MIX_PROG_v` (R9). -/
  mixProg : MixProg
  /-- `hash_init_v`: the initial accumulator from seed and length (R11). -/
  hashInit : Word → Word → Word
  /-- `RNG_INC_v`: the counter increment (R12). -/
  rngInc : Word
  /-- `RNG_SEED_XOR_v`: the constant a seed is xored with (R12). -/
  rngSeedXor : Word
deriving Inhabited

/-- A step that conforms: a rotation by 1 to 63 (00_scope.md R9, R10), or a multiplication by a constant other than 0
(93_implementation_defined.md U5). R10 alone puts no condition on the constant; see assumption 12. -/
def MixStep.conforming : MixStep → Bool
  | .xrr r => decide (1 ≤ r) && decide (r ≤ 63)
  | .xsr _ => false
  | .mul c => c != 0

/-- A program all of whose steps conform (00_scope.md R9, R10; 93_implementation_defined.md U5). -/
def MixProg.conforming (p : MixProg) : Bool :=
  p.steps.all MixStep.conforming

/-- A conforming counter increment is odd (00_scope.md R12). -/
def Params.incOdd (P : Params) : Bool :=
  P.rngInc.getLsbD 0

/-- The test-only parameter set TP of 95_test_vectors.md section 1. It is NOT mx3 in any version. -/
def Params.tp : Params where
  mixProg := MixProg.reference 31 0xBF58476D1CE4E5B9 27 0x94D049BB133111EB 33
  hashInit := fun s l => s ^^^ (l * 0x9E3779B97F4A7C15)
  rngInc := 0x9E3779B97F4A7C15
  rngSeedXor := 0xA0761D6478BD642F

/-- The non-conforming shift variant TP-S of 95_test_vectors.md section 1. -/
def Params.tpShift : Params :=
  { Params.tp with
    mixProg := ⟨.xsr 32, [.mul 0xBF58476D1CE4E5B9, .xsr 29, .mul 0x94D049BB133111EB, .xsr 32]⟩ }

namespace Config

/-- The parameters of each version: OPEN (92_eei_decisions.md D4, D6, D12, D14). See assumption 1. -/
opaque params : Version → Params

/-- The version this block implements: OPEN (00_scope.md R8). See assumption 1. -/
opaque version : Version

/-- `BASE / 0x1000`: OPEN (00_scope.md R13). See assumptions 1 and 16. -/
opaque basePage : Nat

/-- The parameters of this block, `X_v` with `v = VERSION`. -/
def inst : Params :=
  params version

/-- `BASE`, a multiple of 0x1000 (00_scope.md R13). -/
def base : Nat :=
  basePage * 0x1000

/-- FREE VALUE (93_implementation_defined.md U9). The `k`-th answer to a read that reset cuts short:
no answer, or any value. See assumption 7. -/
opaque freeRead : Nat → Option Word

/-- FREE VALUE. Whether the `k`-th transaction that reset cuts short, if it is a write, is acknowledged.
See assumption 7. -/
opaque freeAck : Nat → Bool

end Config

end Sys2Proof
end

