-- ==== Sys2Proof/Syntax.lean ====
section
/-! DEFINITION. Transactions and the instructions they stand for (spec/30_encoding.md R58, R61;
spec/opcode_table.json): one constructor per row. A write carries its whole 64-bit data value, also where its
meaning uses only the low bytes (R59). -/

namespace Sys2Proof

/-- A transaction `(d, v)` (30_encoding.md R58). For a read the data value has no meaning. -/
structure Txn where
  /-- The descriptor. -/
  d : Desc
  /-- The data value of a write. -/
  v : Word
deriving DecidableEq, Repr, Inhabited

/-- The instructions: one constructor per row of the opcode table (30_encoding.md R61; 43_control.md R122). -/
inductive Instr where
  /-- `rd8 ID` (43_control.md R119). -/
  | rdId
  /-- `rd8 STATUS` (R120). -/
  | rdStatus
  /-- `wr8 STATUS, v` (R121). -/
  | wrStatus (v : Word)
  /-- `wr8 MIX_IN, v` (40_mixer.md R71). -/
  | wrMixIn (v : Word)
  /-- `rd8 MIX_IN` (R72). -/
  | rdMixIn
  /-- `rd8 MIX_OUT` (R73). -/
  | rdMixOut
  /-- `wr8 HASH_SEED, v` (41_hasher.md R88). -/
  | wrHashSeed (v : Word)
  /-- `rd8 HASH_SEED` (R89). -/
  | rdHashSeed
  /-- `wr8 HASH_LEN, v` (R90). -/
  | wrHashLen (v : Word)
  /-- `rd8 HASH_LEN` (R91). -/
  | rdHashLen
  /-- `wr8 HASH_CTRL, v` (R85). -/
  | wrHashCtrl (v : Word)
  /-- `wr1 HASH_DATA, v` (R86). -/
  | wrHashData1 (v : Word)
  /-- `wr2 HASH_DATA, v` (R86). -/
  | wrHashData2 (v : Word)
  /-- `wr4 HASH_DATA, v` (R86). -/
  | wrHashData4 (v : Word)
  /-- `wr8 HASH_DATA, v` (R86). -/
  | wrHashData8 (v : Word)
  /-- `wr8 HASH_ACC, v` (R92). -/
  | wrHashAcc (v : Word)
  /-- `rd8 HASH_ACC` (R93). -/
  | rdHashAcc
  /-- `wr8 HASH_TAIL, v` (R94). -/
  | wrHashTail (v : Word)
  /-- `rd8 HASH_TAIL` (R95). -/
  | rdHashTail
  /-- `wr8 HASH_COUNT, v` (R96). -/
  | wrHashCount (v : Word)
  /-- `rd8 HASH_COUNT` (R96). -/
  | rdHashCount
  /-- `rd8 HASH_DIGEST` (R87). -/
  | rdHashDigest
  /-- `wr8 RNG_SEED, v` (42_rng.md R104). -/
  | wrRngSeed (v : Word)
  /-- `wr8 RNG_CTR, v` (R109). -/
  | wrRngCtr (v : Word)
  /-- `rd8 RNG_CTR` (R110). -/
  | rdRngCtr
  /-- `wr8 RNG_KEY, v` (R111). -/
  | wrRngKey (v : Word)
  /-- `rd8 RNG_KEY` (R112). -/
  | rdRngKey
  /-- `rd8 RNG_NEXT64` (R106). -/
  | rdRngNext64
  /-- `rd8 RNG_NEXT32` (R107). -/
  | rdRngNext32
  /-- `rd4 RNG_NEXT32` (R107). -/
  | rdRngNext32W
  /-- `rd8 RNG_NEXTF64` (R108). -/
  | rdRngNextF64
  /-- Every other transaction, with its descriptor and, for a write, its data (43_control.md R122). -/
  | illegal (d : Desc) (v : Word)
deriving DecidableEq, Repr, Inhabited

end Sys2Proof
end

