-- ==== Sys2Proof/Machine/Window.lean ====
section
/-! DEFINITION. The register window (spec/20_memory.md R45 to R50) and the descriptor format TD16
(spec/30_encoding.md R58): fields, register map, legality, and the host's view of the window at `BASE`. -/

namespace Sys2Proof.Machine

/-- The size of an access in bytes: 1, 2, 4 or 8 (20_memory.md R46). -/
inductive Size where
  | b1
  | b2
  | b4
  | b8
deriving DecidableEq, Repr

/-- The number of bytes. -/
def Size.bytes : Size → Nat
  | .b1 => 1
  | .b2 => 2
  | .b4 => 4
  | .b8 => 8

/-- The size code `SZ` (30_encoding.md R58). -/
def Size.code : Size → BitVec 3
  | .b1 => 0
  | .b2 => 1
  | .b4 => 2
  | .b8 => 3

/-- The size a code stands for; codes 4 to 7 are reserved (30_encoding.md R58). -/
def Size.ofCode (c : BitVec 3) : Option Size :=
  if c = 0 then some .b1
  else if c = 1 then some .b2
  else if c = 2 then some .b4
  else if c = 3 then some .b8
  else none

/-- The size with that number of bytes, if there is one. -/
def Size.ofBytes (n : Nat) : Option Size :=
  if n = 1 then some .b1
  else if n = 2 then some .b2
  else if n = 4 then some .b4
  else if n = 8 then some .b8
  else none

/-- Field `W`, bit 15: the transaction is a write (30_encoding.md R58). -/
def isWrite (d : Desc) : Bool :=
  d.getLsbD 15

/-- Field `SZ`, bits 14:12. -/
def szCode (d : Desc) : BitVec 3 :=
  BitVec.extractLsb' 12 3 d

/-- Field `OFF`, bits 11:0. -/
def offset (d : Desc) : BitVec 12 :=
  BitVec.extractLsb' 0 12 d

/-- `W << 15 | SZ << 12 | OFF` (30_encoding.md R61). -/
def descriptor (w : Bool) (sz : BitVec 3) (off : BitVec 12) : Desc :=
  ((BitVec.ofBool w).setWidth 16 <<< 15) ||| (sz.setWidth 16 <<< 12) ||| off.setWidth 16

/-- `BusRead(off, n)` of 00_scope.md R18 as a transaction. -/
def busRead (off : BitVec 12) (n : Size) : Txn :=
  ⟨descriptor false n.code off, 0⟩

/-- `BusWrite(off, n, v)` of 00_scope.md R18 as a transaction. -/
def busWrite (off : BitVec 12) (n : Size) (v : Word) : Txn :=
  ⟨descriptor true n.code off, v⟩

/-- The registers of the window (20_memory.md R46). -/
inductive Reg where
  | id
  | status
  | mixIn
  | mixOut
  | hashSeed
  | hashLen
  | hashCtrl
  | hashData
  | hashAcc
  | hashTail
  | hashCount
  | hashDigest
  | rngSeed
  | rngCtr
  | rngKey
  | rngNext64
  | rngNext32
  | rngNextF64
deriving DecidableEq, Repr

/-- The offset of each register (20_memory.md R46). -/
def Reg.offset : Reg → BitVec 12
  | .id => 0x000
  | .status => 0x008
  | .mixIn => 0x010
  | .mixOut => 0x018
  | .hashSeed => 0x020
  | .hashLen => 0x028
  | .hashCtrl => 0x030
  | .hashData => 0x038
  | .hashAcc => 0x040
  | .hashTail => 0x048
  | .hashCount => 0x050
  | .hashDigest => 0x058
  | .rngSeed => 0x060
  | .rngCtr => 0x068
  | .rngKey => 0x070
  | .rngNext64 => 0x078
  | .rngNext32 => 0x080
  | .rngNextF64 => 0x088

/-- All registers, in the order of their offsets. -/
def Reg.all : List Reg :=
  [.id, .status, .mixIn, .mixOut, .hashSeed, .hashLen, .hashCtrl, .hashData, .hashAcc, .hashTail,
    .hashCount, .hashDigest, .rngSeed, .rngCtr, .rngKey, .rngNext64, .rngNext32, .rngNextF64]

/-- The read sizes a register accepts: the "legal accesses" column of 20_memory.md R46. -/
def Reg.reads : Reg → List Size
  | .hashCtrl | .hashData | .rngSeed => []
  | .rngNext32 => [.b4, .b8]
  | _ => [.b8]

/-- The write sizes a register accepts: the "legal accesses" column of 20_memory.md R46. -/
def Reg.writes : Reg → List Size
  | .id | .mixOut | .hashDigest | .rngNext64 | .rngNext32 | .rngNextF64 => []
  | .hashData => [.b1, .b2, .b4, .b8]
  | _ => [.b8]

/-- An access `(dir, off, n)` is legal exactly when the row of 20_memory.md R46 for offset `off` lists that direction
and size (R49). -/
def legalAccess (write : Bool) (off : BitVec 12) (n : Size) : Bool :=
  Reg.all.any (fun r => decide (r.offset = off) && decide (n ∈ if write then r.writes else r.reads))

/-- The legal descriptors, read off the register map (20_memory.md R49). -/
def legalDescriptor (d : Desc) : Bool :=
  match Size.ofCode (szCode d) with
  | some n => legalAccess (isWrite d) (offset d) n
  | none => false

/-- A host's read (`write = false`) or write of `n` bytes at its address `a`, as the block sees it with its window at
`base`: `MemRead(BASE + off, n)` is `BusRead(off, n)` and `MemWrite(BASE + off, n, v)` is `BusWrite(off, n, v)`
(00_scope.md R18). `none`: no transaction of this block (20_memory.md R47; assumption 16). -/
def hostAccess (base : Nat) (write : Bool) (a n : Nat) (v : Word) : Option Txn :=
  if base ≤ a ∧ a < base + 0x1000 then
    (Size.ofBytes n).map fun sz =>
      if write then busWrite (BitVec.ofNat 12 (a - base)) sz v else busRead (BitVec.ofNat 12 (a - base)) sz
  else none

end Sys2Proof.Machine
end

