-- ==== Sys2Proof/WellFormed.lean ====
section
/-! DEFINITION. Which terms of `Instr` stand for a transaction. Only `illegal` needs checks: its descriptor is none of
the legal ones (spec/43_control.md R122), and a read carries no data (spec/30_encoding.md R58). -/

namespace Sys2Proof

/-- `illegal d v` stands for a transaction only if `d` is not a legal descriptor (43_control.md R122). -/
def Instr.notLegal : Instr → Bool
  | .illegal d _ => !Machine.legalDescriptor d
  | _ => true

/-- A read has no data value (30_encoding.md R58): the term of an illegal read holds 0 there. -/
def Instr.readHasNoData : Instr → Bool
  | .illegal d v => Machine.isWrite d || v == 0
  | _ => true

/-- The terms the decoder answers with. -/
def Instr.wellFormed (i : Instr) : Bool :=
  i.notLegal && i.readHasNoData

end Sys2Proof
end

