-- ==== Sys2Proof/Decode.lean ====
section
/-! DEFINITION. The decoder (spec/30_encoding.md R60, R61) and the encoder. The decoder is total: a descriptor that is
no row of the opcode map is the instruction ILLEGAL, which has a meaning, so there is nothing to reject. -/

namespace Sys2Proof

/-- One row of the opcode map of 30_encoding.md R61: the descriptor (its mask is 0xFFFF) and the instruction a
transaction with that descriptor and a given data value is. -/
structure Row where
  code : Desc
  make : Word → Instr

/-- The rows of the control registers and the Mixer (30_encoding.md R61). -/
def rowsControlMixer : List Row :=
  [⟨0x3000, fun _ => .rdId⟩, ⟨0x3008, fun _ => .rdStatus⟩, ⟨0xB008, .wrStatus⟩, ⟨0xB010, .wrMixIn⟩,
    ⟨0x3010, fun _ => .rdMixIn⟩, ⟨0x3018, fun _ => .rdMixOut⟩]

/-- The rows of the Hasher's parameters and data (30_encoding.md R61). -/
def rowsHasherInput : List Row :=
  [⟨0xB020, .wrHashSeed⟩, ⟨0x3020, fun _ => .rdHashSeed⟩, ⟨0xB028, .wrHashLen⟩, ⟨0x3028, fun _ => .rdHashLen⟩,
    ⟨0xB030, .wrHashCtrl⟩, ⟨0x8038, .wrHashData1⟩, ⟨0x9038, .wrHashData2⟩, ⟨0xA038, .wrHashData4⟩,
    ⟨0xB038, .wrHashData8⟩]

/-- The rows of the Hasher's state (30_encoding.md R61). -/
def rowsHasherState : List Row :=
  [⟨0xB040, .wrHashAcc⟩, ⟨0x3040, fun _ => .rdHashAcc⟩, ⟨0xB048, .wrHashTail⟩, ⟨0x3048, fun _ => .rdHashTail⟩,
    ⟨0xB050, .wrHashCount⟩, ⟨0x3050, fun _ => .rdHashCount⟩, ⟨0x3058, fun _ => .rdHashDigest⟩]

/-- The rows of the RNG (30_encoding.md R61). -/
def rowsRng : List Row :=
  [⟨0xB060, .wrRngSeed⟩, ⟨0xB068, .wrRngCtr⟩, ⟨0x3068, fun _ => .rdRngCtr⟩, ⟨0xB070, .wrRngKey⟩,
    ⟨0x3070, fun _ => .rdRngKey⟩, ⟨0x3078, fun _ => .rdRngNext64⟩, ⟨0x3080, fun _ => .rdRngNext32⟩,
    ⟨0x2080, fun _ => .rdRngNext32W⟩, ⟨0x3088, fun _ => .rdRngNextF64⟩]

/-- The 31 legal rows (30_encoding.md R61). -/
def opcodeMap : List Row :=
  rowsControlMixer ++ rowsHasherInput ++ rowsHasherState ++ rowsRng

/-- The data an instruction ILLEGAL keeps: that of a write; a read has none (30_encoding.md R58). -/
def illegalData (d : Desc) (v : Word) : Word :=
  if Machine.isWrite d then v else 0

/-- Decoding is total (30_encoding.md R60): the row whose descriptor is `d`, or else ILLEGAL. -/
def decode (d : Desc) (v : Word) : Instr :=
  match opcodeMap.find? (fun r => r.code == d) with
  | some r => r.make v
  | none => .illegal d (illegalData d v)

/-- The decoder on a transaction. -/
def decodeTxn (t : Txn) : Instr :=
  decode t.d t.v

/-- The transaction an instruction stands for, from the columns W, SZ and OFF of 30_encoding.md R61. -/
def encode : Instr → Txn
  | .rdId => Machine.busRead 0x000 .b8
  | .rdStatus => Machine.busRead 0x008 .b8
  | .wrStatus v => Machine.busWrite 0x008 .b8 v
  | .wrMixIn v => Machine.busWrite 0x010 .b8 v
  | .rdMixIn => Machine.busRead 0x010 .b8
  | .rdMixOut => Machine.busRead 0x018 .b8
  | .wrHashSeed v => Machine.busWrite 0x020 .b8 v
  | .rdHashSeed => Machine.busRead 0x020 .b8
  | .wrHashLen v => Machine.busWrite 0x028 .b8 v
  | .rdHashLen => Machine.busRead 0x028 .b8
  | .wrHashCtrl v => Machine.busWrite 0x030 .b8 v
  | .wrHashData1 v => Machine.busWrite 0x038 .b1 v
  | .wrHashData2 v => Machine.busWrite 0x038 .b2 v
  | .wrHashData4 v => Machine.busWrite 0x038 .b4 v
  | .wrHashData8 v => Machine.busWrite 0x038 .b8 v
  | .wrHashAcc v => Machine.busWrite 0x040 .b8 v
  | .rdHashAcc => Machine.busRead 0x040 .b8
  | .wrHashTail v => Machine.busWrite 0x048 .b8 v
  | .rdHashTail => Machine.busRead 0x048 .b8
  | .wrHashCount v => Machine.busWrite 0x050 .b8 v
  | .rdHashCount => Machine.busRead 0x050 .b8
  | .rdHashDigest => Machine.busRead 0x058 .b8
  | .wrRngSeed v => Machine.busWrite 0x060 .b8 v
  | .wrRngCtr v => Machine.busWrite 0x068 .b8 v
  | .rdRngCtr => Machine.busRead 0x068 .b8
  | .wrRngKey v => Machine.busWrite 0x070 .b8 v
  | .rdRngKey => Machine.busRead 0x070 .b8
  | .rdRngNext64 => Machine.busRead 0x078 .b8
  | .rdRngNext32 => Machine.busRead 0x080 .b8
  | .rdRngNext32W => Machine.busRead 0x080 .b4
  | .rdRngNextF64 => Machine.busRead 0x088 .b8
  | .illegal d v => ⟨d, v⟩

/-- The transaction of an opcode-table word of `nbits` bits: bits 15:0 are the descriptor, the 64 bits above them the
data value, and every bit at or above `nbits` is 0. See assumption 21. -/
def txnOfTableWord (nbits w : Nat) : Txn :=
  ⟨BitVec.ofNat 16 (w % 2 ^ nbits), BitVec.ofNat 64 (w % 2 ^ nbits / 2 ^ 16)⟩

/-- The instruction the decoder reads from an opcode-table word. The decoder refuses nothing. -/
def decodeTableWord (nbits w : Nat) : Option Instr :=
  some (decodeTxn (txnOfTableWord nbits w))

end Sys2Proof
end

