-- ==== Sys2Proof/Machine/Bits.lean ====
section
/-! DEFINITION. Bit-level helpers: rotation, byte extraction, little-endian packing, extension and population count
(spec/00_scope.md R14 to R17). -/

namespace Sys2Proof.Machine

/-- `rotr64` of 00_scope.md R16: right rotation by `r mod 64`. -/
def rotr64 (a : Word) (r : Nat) : Word :=
  if r % 64 = 0 then a else (a >>> (r % 64)) ||| (a <<< (64 - r % 64))

/-- `popcount` of 00_scope.md R16: the number of one bits. -/
def popcount (a : Word) : Nat :=
  (List.range 64).countP (fun i => a.getLsbD i)

/-- Byte `i` of a word, `v[8i+7:8i]` (00_scope.md R14). -/
def byteAt (v : Word) (i : Nat) : Byte :=
  BitVec.extractLsb' (8 * i) 8 v

/-- The bytes of an `n`-byte write in the order the block takes them, byte 0 first
(20_memory.md R48; 30_encoding.md R59). -/
def lowBytes (n : Nat) (v : Word) : List Byte :=
  (List.range n).map (byteAt v)

/-- `zext_64` of 00_scope.md R15. -/
def zext64 {w : Nat} (v : BitVec w) : Word :=
  v.setWidth 64

/-- `sext_N` of 00_scope.md R15, which no rule of the spec uses. -/
def sextTo (n : Nat) {w : Nat} (v : BitVec w) : BitVec n :=
  v.signExtend n

/-- Little-endian packing `le` of 00_scope.md R17: the sum of `zext_64(b_i) << 8i`, first byte least significant. -/
def le : List Byte → Word
  | [] => 0
  | b :: bs => zext64 b + (le bs <<< 8)

/-- The value with the bits above its low `n` bytes cleared (30_encoding.md R59). -/
def keepBytes (n : Nat) (v : Word) : Word :=
  v &&& (BitVec.ofNat 64 (2 ^ (8 * n) - 1))

/-- `TBUF[8i+7 : 8i] <- b` on the 56-bit tail buffer (41_hasher.md R84). -/
def putByte (t : BitVec 56) (i : Nat) (b : Byte) : BitVec 56 :=
  (t &&& ~~~((0xFF#56) <<< (8 * i))) ||| ((b.setWidth 56) <<< (8 * i))

/-- `v[55:0] & ((1 << 8n) - 1)`: the low `n` bytes of a tail buffer (41_hasher.md R94). -/
def keepTail (n : Nat) (t : BitVec 56) : BitVec 56 :=
  t &&& (BitVec.ofNat 56 (2 ^ (8 * n) - 1))

end Sys2Proof.Machine
end

