-- ==== Sys2Proof/Machine/Mix.lean ====
section
/-! DEFINITION. The function every unit uses: the mixer (spec/40_mixer.md R67, R68), and the digest as a function of
the message (spec/41_hasher.md R80). Both are pure and total. -/

namespace Sys2Proof.Machine

/-- One mixer step (40_mixer.md R68); amounts are taken modulo 64 (00_scope.md R10). -/
def mixStep (st : MixStep) (y : Word) : Word :=
  match st with
  | .xrr r => y ^^^ rotr64 y r
  | .xsr r => y ^^^ (y >>> (r % 64))
  | .mul c => y * c

/-- The steps in list order (40_mixer.md R67). -/
def mixSteps (l : List MixStep) (x : Word) : Word :=
  l.foldl (fun y st => mixStep st y) x

/-- `mix_v` (40_mixer.md R67). -/
def mix (P : Params) (x : Word) : Word :=
  mixSteps P.mixProg.steps x

/-- Step 2 of 41_hasher.md R80: one full chunk, mixed into the accumulator. -/
def hashChunk (P : Params) (d : List Byte) (acc : Word) (i : Nat) : Word :=
  mix P (acc ^^^ le ((d.drop (8 * i)).take 8))

/-- Steps 2 to 4 of 41_hasher.md R80, from a given accumulator. -/
def hashFrom (P : Params) (acc : Word) (d : List Byte) : Word :=
  mix P ((List.range (d.length / 8)).foldl (hashChunk P d) acc ^^^ le (d.drop (8 * (d.length / 8))))

/-- `hash'(d, s, L)` of 41_hasher.md R97: the digest of the bytes `d` with the declared length `L`. -/
def hashDeclared (P : Params) (d : List Byte) (s L : Word) : Word :=
  hashFrom P (P.hashInit s L) d

/-- `hash_v(d, s)` of 41_hasher.md R80; the length enters modulo 2^64 (R83). -/
def hash (P : Params) (d : List Byte) (s : Word) : Word :=
  hashDeclared P d s (BitVec.ofNat 64 d.length)

end Sys2Proof.Machine
end

