-- ==== Sys2Proof/Machine/State.lean ====
section
/-! DEFINITION. The state of the block (spec/10_state.md R23) and of its bus interface, the faults (none) and the
refusals, and the state right after reset (R43). -/

namespace Sys2Proof.Machine

/-- No transaction can fault (60_exceptions.md R124), so there is no fault reason. Safe. See assumption 9. -/
inductive Fault where
deriving DecidableEq, Repr

/-- The reasons to refuse an instruction. -/
inductive Refusal where
  /-- Raised by an arm of `exec` whose instruction has no meaning yet; no arm of this model raises it. Safe: the
  machine stops where the hardware goes on. -/
  | notModelled (mnemonic : String)
deriving DecidableEq, Repr

/-- What the block drove on the bus in its last step (00_scope.md R18; 60_exceptions.md R125). See assumption 4. -/
inductive Response where
  /-- No answer: no transaction was answered. -/
  | idle
  /-- A write was accepted. -/
  | ack
  /-- The data of a read, as a 64-bit value whose bits above its size are zero (30_encoding.md R59). -/
  | data (v : Word)
deriving DecidableEq, Repr

/-- What can arrive at the block, one a step (00_scope.md R20; 20_memory.md R53; 70_reset_and_hazards.md R135). -/
inductive Input where
  /-- A host's transaction with descriptor `d` and data `v`. -/
  | access (d : Desc) (v : Word)
  /-- The platform asserts reset; `cut` is the transaction in progress then, if there is one. -/
  | assertReset (cut : Option Txn)
  /-- The platform releases reset. -/
  | releaseReset
deriving DecidableEq, Repr

/-- The state of one block: the ten elements of 10_state.md R23, then the interface of the model. -/
structure State where
  /-- `MIX_IN`, the last value written for mixing (R24). -/
  mixIn : Word
  /-- `HASH_SEED`, the seed of the next START (R25). -/
  hashSeed : Word
  /-- `HASH_LEN`, the declared length of the next START (R26). -/
  hashLen : Word
  /-- `ACC`, the accumulator (R27). -/
  acc : Word
  /-- `TBUF`, the pending tail bytes (R28). -/
  tbuf : BitVec 56
  /-- `TCNT`, the number of pending tail bytes (R28). -/
  tcnt : BitVec 3
  /-- `COUNT`, the bytes appended since the last START (R29). -/
  count : Word
  /-- `CTR`, the counter word (R30). -/
  ctr : Word
  /-- `KEY`, the seed-derived word (R30). -/
  key : Word
  /-- `ACCERR`, the sticky illegal-access flag (R35). -/
  accerr : Bool
  /-- The platform's reset input is asserted (70_reset_and_hazards.md R135). -/
  inReset : Bool
  /-- What arrives at the block from now on, oldest first: the model's own field. See assumption 2. -/
  inputs : List Input
  /-- The bus answer of the last step: the model's own field. See assumption 4. -/
  resp : Response
  /-- How many free answers have been taken: the model's own field. See assumption 7. -/
  freeCount : Nat
deriving DecidableEq, Repr

/-- The machine right after reset (10_state.md R43; 70_reset_and_hazards.md R135), with nothing arriving. -/
def State.reset : State where
  mixIn := 0
  hashSeed := 0
  hashLen := 0
  acc := Config.inst.hashInit 0 0
  tbuf := 0
  tcnt := 0
  count := 0
  ctr := 0
  key := Config.inst.rngSeedXor
  accerr := false
  inReset := false
  inputs := []
  resp := .idle
  freeCount := 0

end Sys2Proof.Machine
end

