-- ==== Sys2Proof/Machine/Ops.lean ====
section
/-! DEFINITION. The named operations on the state: one writer per element, the bus answer, the shared operations of the
Hasher and the RNG, the one abnormal event, and the reset input. They take the parameters as an argument, so that
what they do can be stated for every parameter set (spec/93_implementation_defined.md U1). -/

namespace Sys2Proof.Machine

/-- `MIX_IN <- v`. -/
def State.setMixIn (s : State) (v : Word) : State := { s with mixIn := v }

/-- `HASH_SEED <- v`. -/
def State.setHashSeed (s : State) (v : Word) : State := { s with hashSeed := v }

/-- `HASH_LEN <- v`. -/
def State.setHashLen (s : State) (v : Word) : State := { s with hashLen := v }

/-- `ACC <- v`. -/
def State.setAcc (s : State) (v : Word) : State := { s with acc := v }

/-- `TCNT <- n` and `TBUF <- t`. -/
def State.setTail (s : State) (n : BitVec 3) (t : BitVec 56) : State := { s with tcnt := n, tbuf := t }

/-- `COUNT <- v`. -/
def State.setCount (s : State) (v : Word) : State := { s with count := v }

/-- `CTR <- v`. -/
def State.setCtr (s : State) (v : Word) : State := { s with ctr := v }

/-- `KEY <- v`. -/
def State.setKey (s : State) (v : Word) : State := { s with key := v }

/-- `ACCERR <- b`. -/
def State.setAccErr (s : State) (b : Bool) : State := { s with accerr := b }

/-- The bus answer of this step (assumption 4). -/
def State.respond (s : State) (r : Response) : State := { s with resp := r }

/-- `START` (41_hasher.md R85). -/
def State.startHash (P : Params) (s : State) : State :=
  ((s.setAcc (P.hashInit s.hashSeed s.hashLen)).setTail 0 0).setCount 0

/-- The chunk word `w` of 41_hasher.md R84: the seven pending bytes and the eighth. -/
def chunkWord (t : BitVec 56) (b : Byte) : Word :=
  zext64 t ||| (zext64 b <<< 56)

/-- The internal step `append` (41_hasher.md R84). -/
def State.appendByte (P : Params) (s : State) (b : Byte) : State :=
  (if s.tcnt.toNat < 7 then s.setTail (s.tcnt + 1) (putByte s.tbuf s.tcnt.toNat b)
    else (s.setAcc (mix P (s.acc ^^^ chunkWord s.tbuf b))).setTail 0 0).setCount (s.count + 1)

/-- `append` of each byte in order (41_hasher.md R86). -/
def State.appendBytes (P : Params) (s : State) (bs : List Byte) : State :=
  bs.foldl (State.appendByte P) s

/-- The tail mixer: `mix(ACC ^ zext_64(TBUF))` (41_hasher.md R87; 10_state.md R33). -/
def State.digest (P : Params) (s : State) : Word :=
  mix P (s.acc ^^^ zext64 s.tbuf)

/-- Seeding (42_rng.md R104). -/
def State.seedRng (P : Params) (s : State) (seed : Word) : State :=
  (s.setCtr 0).setKey (seed ^^^ P.rngSeedXor)

/-- The state after one `draw` (42_rng.md R105): the counter has advanced, `KEY` is as it was. -/
def State.advance (P : Params) (s : State) : State :=
  s.setCtr (s.ctr + P.rngInc)

/-- The word `x` that `draw` returns: the mix of the new counter plus `KEY` (42_rng.md R105). -/
def State.drawn (P : Params) (s : State) : Word :=
  mix P ((s.advance P).ctr + (s.advance P).key)

/-- The one abnormal event, shared by every illegal transaction (43_control.md R122; 60_exceptions.md R125):
`ACCERR` is set, a read answers 0, a write is accepted, and nothing else changes. -/
def State.illegalAccess (s : State) (write : Bool) : State :=
  (s.setAccErr true).respond (if write then .ack else .data 0)

/-- Every element of 10_state.md R23 takes its reset value (R43); the interface fields keep theirs. -/
def State.toResetValues (s : State) : State :=
  { State.reset with inReset := s.inReset, inputs := s.inputs, resp := s.resp, freeCount := s.freeCount }

/-- The number of bytes a descriptor's data has; a reserved size code gets the whole word (assumption 7). -/
def dataBytes (d : Desc) : Nat :=
  match Size.ofCode (szCode d) with
  | some n => n.bytes
  | none => 8

/-- FREE VALUE (93_implementation_defined.md U9). The answer of a transaction that reset cuts short, the `k`-th of the
run: a read answers with any value or not at all, a write is accepted or not. See assumption 7. -/
def cutAnswer (k : Nat) (t : Txn) : Response :=
  if isWrite t.d then (if Config.freeAck k then .ack else .idle)
  else match Config.freeRead k with
    | some v => .data (keepBytes (dataBytes t.d) v)
    | none => .idle

/-- The platform asserts reset (70_reset_and_hazards.md R135). The transaction in progress leaves no effect but its
answer; with reset already asserted none can be in progress. See assumptions 5 and 7. -/
def State.enterReset (s : State) (cut : Option Txn) : State :=
  match s.inReset, cut with
  | false, some t =>
    { s.toResetValues with inReset := true, resp := cutAnswer s.freeCount t, freeCount := s.freeCount + 1 }
  | _, _ => { s.toResetValues with inReset := true, resp := .idle }

/-- The platform releases reset (70_reset_and_hazards.md R135): every element holds its reset value. A release of a
reset that is not asserted changes nothing. See assumption 5. -/
def State.leaveReset (s : State) : State :=
  match s.inReset with
  | true => { s.toResetValues with inReset := false, resp := .idle }
  | false => s.respond .idle

/-- A transaction that arrives while reset is asserted is not accepted (70_reset_and_hazards.md R135): no effect and no
answer. See assumption 6. -/
def State.notAccepted (s : State) : State :=
  s.respond .idle

/-- What is still to arrive after the oldest input has been taken. -/
def State.takeInput (s : State) (rest : List Input) : State :=
  { s with inputs := rest }

end Sys2Proof.Machine
end

