-- ==== Sys2Proof/Machine/Flags.lean ====
section
/-! DEFINITION. The status bits and the identification word (spec/10_state.md R31, R34, R35). The block has no other
flags (R39). -/

namespace Sys2Proof.Machine

/-- `LEN_MATCH`: `COUNT == HASH_LEN` (10_state.md R34). -/
def State.lenMatch (s : State) : Bool :=
  s.count == s.hashLen

/-- The value `STATUS` reads as (10_state.md R34; 43_control.md R120). -/
def State.statusWord (s : State) : Word :=
  (zext64 (BitVec.ofBool s.accerr) <<< 8) ||| (zext64 s.tcnt <<< 1) ||| zext64 (BitVec.ofBool s.lenMatch)

/-- The write of `STATUS` (43_control.md R121): bit 8 set clears `ACCERR`, every other bit is ignored. -/
def State.writeStatus (s : State) (v : Word) : State :=
  if v.getLsbD 8 then s.setAccErr false else s

/-- The value `ID` reads as (10_state.md R31; 43_control.md R119). -/
def idWord (ver : Version) : Word :=
  0x4D58330000000100 ||| BitVec.ofNat 64 ver.number

end Sys2Proof.Machine
end

