-- ==== Sys2Proof/Machine/Operands.lean ====
section
/-! DEFINITION. Operand forms: what a write of n bytes uses of its data value, and the values reads return
(spec/30_encoding.md R59; spec/42_rng.md R107, R108; spec/10_state.md R36). -/

namespace Sys2Proof.Machine

/-- A read's answer of a full 64-bit value. -/
def State.answer64 (s : State) (v : Word) : State :=
  s.respond (.data v)

/-- A read's answer of a narrower value, zero-extended (30_encoding.md R59). -/
def State.answerNarrow {w : Nat} (s : State) (v : BitVec w) : State :=
  s.respond (.data (zext64 v))

/-- The acceptance of a write (60_exceptions.md R125). -/
def State.accept (s : State) : State :=
  s.respond .ack

/-- `x[63:32]` (42_rng.md R107). -/
def upper32 (x : Word) : BitVec 32 :=
  BitVec.extractLsb' 32 32 x

/-- The index of the highest one bit of a non-zero value (42_rng.md R108). -/
def highestBit (m : Word) : Nat :=
  m.toNat.log2

/-- `f64bits` (42_rng.md R108): the binary64 encoding of `m * 2^-53` for `m < 2^53`. -/
def f64bits (m : Word) : Word :=
  if m = 0 then 0
  else
    (BitVec.ofNat 64 (highestBit m + 970) <<< 52) ||| ((m <<< (52 - highestBit m)) &&& 0x000FFFFFFFFFFFFF)

/-- `TBUF` as a written `HASH_TAIL` holds it: bits 55:0 (10_state.md R36). -/
def tailBytesOf (v : Word) : BitVec 56 :=
  BitVec.extractLsb' 0 56 v

/-- `TCNT` as a written `HASH_TAIL` holds it: bits 58:56 (10_state.md R36). -/
def tailCountOf (v : Word) : BitVec 3 :=
  BitVec.extractLsb' 56 3 v

/-- The write of `HASH_TAIL` (41_hasher.md R94): bytes at positions `>= TCNT` are forced to 0. -/
def State.writeTail (s : State) (v : Word) : State :=
  s.setTail (tailCountOf v) (keepTail (tailCountOf v).toNat (tailBytesOf v))

/-- The value `HASH_TAIL` reads as (41_hasher.md R95). -/
def State.tailWord (s : State) : Word :=
  (zext64 s.tcnt <<< 56) ||| zext64 s.tbuf

end Sys2Proof.Machine
end

