-- ==== Sys2Proof/Machine/Control.lean ====
section
/-! DEFINITION. Meanings of the identification, status and illegal transactions (spec/43_control.md R119 to R122). -/

namespace Sys2Proof.Machine

/-- `rd8 ID` (43_control.md R119). -/
def execRdId (s : State) : Host.Outcome State Fault Refusal :=
  .next (s.answer64 (idWord Config.version))

/-- `rd8 STATUS` (43_control.md R120). -/
def execRdStatus (s : State) : Host.Outcome State Fault Refusal :=
  .next (s.answer64 s.statusWord)

/-- `wr8 STATUS, v` (43_control.md R121). -/
def execWrStatus (v : Word) (s : State) : Host.Outcome State Fault Refusal :=
  .next (s.writeStatus v).accept

/-- ILLEGAL (43_control.md R122): the data of a write is discarded. -/
def execIllegal (d : Desc) (_v : Word) (s : State) : Host.Outcome State Fault Refusal :=
  .next (s.illegalAccess (isWrite d))

end Sys2Proof.Machine
end

