-- ==== Sys2Proof/Machine/Hasher.lean ====
section
/-! DEFINITION. Meanings of the Hasher's transactions (spec/41_hasher.md R85 to R96). -/

namespace Sys2Proof.Machine

/-- `wr8 HASH_SEED, v` (41_hasher.md R88). -/
def execWrHashSeed (v : Word) (s : State) : Host.Outcome State Fault Refusal :=
  .next (s.setHashSeed v).accept

/-- `rd8 HASH_SEED` (41_hasher.md R89). -/
def execRdHashSeed (s : State) : Host.Outcome State Fault Refusal :=
  .next (s.answer64 s.hashSeed)

/-- `wr8 HASH_LEN, v` (41_hasher.md R90). -/
def execWrHashLen (v : Word) (s : State) : Host.Outcome State Fault Refusal :=
  .next (s.setHashLen v).accept

/-- `rd8 HASH_LEN` (41_hasher.md R91). -/
def execRdHashLen (s : State) : Host.Outcome State Fault Refusal :=
  .next (s.answer64 s.hashLen)

/-- `wr8 HASH_CTRL, v` (41_hasher.md R85): bit 0 set is START, every other bit is ignored. -/
def execWrHashCtrl (v : Word) (s : State) : Host.Outcome State Fault Refusal :=
  .next (if v.getLsbD 0 then s.startHash Config.inst else s).accept

/-- `wr1 HASH_DATA, v` (41_hasher.md R86). -/
def execWrHashData1 (v : Word) (s : State) : Host.Outcome State Fault Refusal :=
  .next (s.appendBytes Config.inst (lowBytes 1 v)).accept

/-- `wr2 HASH_DATA, v` (41_hasher.md R86). -/
def execWrHashData2 (v : Word) (s : State) : Host.Outcome State Fault Refusal :=
  .next (s.appendBytes Config.inst (lowBytes 2 v)).accept

/-- `wr4 HASH_DATA, v` (41_hasher.md R86). -/
def execWrHashData4 (v : Word) (s : State) : Host.Outcome State Fault Refusal :=
  .next (s.appendBytes Config.inst (lowBytes 4 v)).accept

/-- `wr8 HASH_DATA, v` (41_hasher.md R86). -/
def execWrHashData8 (v : Word) (s : State) : Host.Outcome State Fault Refusal :=
  .next (s.appendBytes Config.inst (lowBytes 8 v)).accept

/-- `wr8 HASH_ACC, v` (41_hasher.md R92). -/
def execWrHashAcc (v : Word) (s : State) : Host.Outcome State Fault Refusal :=
  .next (s.setAcc v).accept

/-- `rd8 HASH_ACC` (41_hasher.md R93). -/
def execRdHashAcc (s : State) : Host.Outcome State Fault Refusal :=
  .next (s.answer64 s.acc)

/-- `wr8 HASH_TAIL, v` (41_hasher.md R94). -/
def execWrHashTail (v : Word) (s : State) : Host.Outcome State Fault Refusal :=
  .next (s.writeTail v).accept

/-- `rd8 HASH_TAIL` (41_hasher.md R95). -/
def execRdHashTail (s : State) : Host.Outcome State Fault Refusal :=
  .next (s.answer64 s.tailWord)

/-- `wr8 HASH_COUNT, v` (41_hasher.md R96). -/
def execWrHashCount (v : Word) (s : State) : Host.Outcome State Fault Refusal :=
  .next (s.setCount v).accept

/-- `rd8 HASH_COUNT` (41_hasher.md R96). -/
def execRdHashCount (s : State) : Host.Outcome State Fault Refusal :=
  .next (s.answer64 s.count)

/-- `rd8 HASH_DIGEST` (41_hasher.md R87). -/
def execRdHashDigest (s : State) : Host.Outcome State Fault Refusal :=
  .next (s.answer64 (s.digest Config.inst))

end Sys2Proof.Machine
end

