-- ==== Sys2Proof/Machine/Mixer.lean ====
section
/-! DEFINITION. Meanings of the Mixer's transactions (spec/40_mixer.md R71 to R73). -/

namespace Sys2Proof.Machine

/-- `wr8 MIX_IN, v` (40_mixer.md R71). -/
def execWrMixIn (v : Word) (s : State) : Host.Outcome State Fault Refusal :=
  .next (s.setMixIn v).accept

/-- `rd8 MIX_IN` (40_mixer.md R72). -/
def execRdMixIn (s : State) : Host.Outcome State Fault Refusal :=
  .next (s.answer64 s.mixIn)

/-- `rd8 MIX_OUT` (40_mixer.md R73). -/
def execRdMixOut (s : State) : Host.Outcome State Fault Refusal :=
  .next (s.answer64 (mix Config.inst s.mixIn))

end Sys2Proof.Machine
end

