-- ==== Sys2Proof/Machine/Rng.lean ====
section
/-! DEFINITION. Meanings of the RNG's transactions (spec/42_rng.md R104 to R112). -/

namespace Sys2Proof.Machine

/-- `wr8 RNG_SEED, v` (42_rng.md R104). -/
def execWrRngSeed (v : Word) (s : State) : Host.Outcome State Fault Refusal :=
  .next (s.seedRng Config.inst v).accept

/-- `wr8 RNG_CTR, v` (42_rng.md R109). -/
def execWrRngCtr (v : Word) (s : State) : Host.Outcome State Fault Refusal :=
  .next (s.setCtr v).accept

/-- `rd8 RNG_CTR` (42_rng.md R110). -/
def execRdRngCtr (s : State) : Host.Outcome State Fault Refusal :=
  .next (s.answer64 s.ctr)

/-- `wr8 RNG_KEY, v` (42_rng.md R111). -/
def execWrRngKey (v : Word) (s : State) : Host.Outcome State Fault Refusal :=
  .next (s.setKey v).accept

/-- `rd8 RNG_KEY` (42_rng.md R112). -/
def execRdRngKey (s : State) : Host.Outcome State Fault Refusal :=
  .next (s.answer64 s.key)

/-- `rd8 RNG_NEXT64` (42_rng.md R106): one draw. -/
def execRdRngNext64 (s : State) : Host.Outcome State Fault Refusal :=
  .next ((s.advance Config.inst).answer64 (s.drawn Config.inst))

/-- `rd8 RNG_NEXT32` (42_rng.md R107): one draw, its upper 32 bits zero-extended. -/
def execRdRngNext32 (s : State) : Host.Outcome State Fault Refusal :=
  .next ((s.advance Config.inst).answer64 (zext64 (upper32 (s.drawn Config.inst))))

/-- `rd4 RNG_NEXT32` (42_rng.md R107): one draw, its upper 32 bits as a 4-byte answer. -/
def execRdRngNext32W (s : State) : Host.Outcome State Fault Refusal :=
  .next ((s.advance Config.inst).answerNarrow (upper32 (s.drawn Config.inst)))

/-- `rd8 RNG_NEXTF64` (42_rng.md R108): one draw, its upper 53 bits as a binary64 in [0, 1). -/
def execRdRngNextF64 (s : State) : Host.Outcome State Fault Refusal :=
  .next ((s.advance Config.inst).answer64 (f64bits (s.drawn Config.inst >>> 11)))

end Sys2Proof.Machine
end

