-- ==== Sys2Proof/Machine/Dispatch.lean ====
section
/-! DEFINITION. One arm per instruction; each arm is one call of the instruction's meaning. -/

namespace Sys2Proof.Machine

/-- The meaning of an instruction (spec/opcode_table.json). -/
def exec (i : Instr) (s : State) : Host.Outcome State Fault Refusal :=
  match i with
  | .rdId => Sys2Proof.Machine.execRdId s
  | .rdStatus => Sys2Proof.Machine.execRdStatus s
  | .wrStatus v => Sys2Proof.Machine.execWrStatus v s
  | .wrMixIn v => Sys2Proof.Machine.execWrMixIn v s
  | .rdMixIn => Sys2Proof.Machine.execRdMixIn s
  | .rdMixOut => Sys2Proof.Machine.execRdMixOut s
  | .wrHashSeed v => Sys2Proof.Machine.execWrHashSeed v s
  | .rdHashSeed => Sys2Proof.Machine.execRdHashSeed s
  | .wrHashLen v => Sys2Proof.Machine.execWrHashLen v s
  | .rdHashLen => Sys2Proof.Machine.execRdHashLen s
  | .wrHashCtrl v => Sys2Proof.Machine.execWrHashCtrl v s
  | .wrHashData1 v => Sys2Proof.Machine.execWrHashData1 v s
  | .wrHashData2 v => Sys2Proof.Machine.execWrHashData2 v s
  | .wrHashData4 v => Sys2Proof.Machine.execWrHashData4 v s
  | .wrHashData8 v => Sys2Proof.Machine.execWrHashData8 v s
  | .wrHashAcc v => Sys2Proof.Machine.execWrHashAcc v s
  | .rdHashAcc => Sys2Proof.Machine.execRdHashAcc s
  | .wrHashTail v => Sys2Proof.Machine.execWrHashTail v s
  | .rdHashTail => Sys2Proof.Machine.execRdHashTail s
  | .wrHashCount v => Sys2Proof.Machine.execWrHashCount v s
  | .rdHashCount => Sys2Proof.Machine.execRdHashCount s
  | .rdHashDigest => Sys2Proof.Machine.execRdHashDigest s
  | .wrRngSeed v => Sys2Proof.Machine.execWrRngSeed v s
  | .wrRngCtr v => Sys2Proof.Machine.execWrRngCtr v s
  | .rdRngCtr => Sys2Proof.Machine.execRdRngCtr s
  | .wrRngKey v => Sys2Proof.Machine.execWrRngKey v s
  | .rdRngKey => Sys2Proof.Machine.execRdRngKey s
  | .rdRngNext64 => Sys2Proof.Machine.execRdRngNext64 s
  | .rdRngNext32 => Sys2Proof.Machine.execRdRngNext32 s
  | .rdRngNext32W => Sys2Proof.Machine.execRdRngNext32W s
  | .rdRngNextF64 => Sys2Proof.Machine.execRdRngNextF64 s
  | .illegal d v => Sys2Proof.Machine.execIllegal d v s

end Sys2Proof.Machine
end

