-- ==== Sys2Proof/Machine/Step.lean ====
section
/-! DEFINITION. One step: the oldest input is taken. A transaction is decoded and run whole (spec/00_scope.md R20;
spec/20_memory.md R53); the reset input acts as spec/70_reset_and_hazards.md R135 says; with nothing arriving the
block keeps its state (assumption 3). -/

namespace Sys2Proof.Machine

/-- One step of the block. -/
def step (s : State) : Host.Outcome State Fault Refusal :=
  match s.inputs with
  | [] => .next s
  | .access d v :: rest =>
    match s.inReset with
    | true => .next (s.takeInput rest).notAccepted
    | false => exec (decode d v) (s.takeInput rest)
  | .assertReset cut :: rest => .next ((s.takeInput rest).enterReset cut)
  | .releaseReset :: rest => .next (s.takeInput rest).leaveReset

/-- `s` with the transaction of an opcode-table word arriving next and the reset input released, so that the next step
runs it. It stands for a host issuing that transaction. See assumptions 2 and 21. -/
def State.withFetchWord (s : State) (nbits w : Nat) : State :=
  { s with
    inReset := false
    inputs := .access (txnOfTableWord nbits w).d (txnOfTableWord nbits w).v :: s.inputs }

end Sys2Proof.Machine
end

