-- ==== Sys2Proof/Machine/Assembler.lean ====
section
/-! DEFINITION. The host side of spec/30_encoding.md: the assembler (R65), its pseudo-instructions (R66) and the source's
calls (R62). These are functions to lists of transactions; the block itself knows only transactions.
The lexical details the spec leaves open are in assumption 15. -/

namespace Sys2Proof.Machine

/-- A read of a register at its own offset. -/
def readReg (r : Reg) (n : Size) : Txn :=
  busRead r.offset n

/-- A write of a register at its own offset. -/
def writeReg (r : Reg) (n : Size) (v : Word) : Txn :=
  busWrite r.offset n v

/-- The byte swap of an `n`-byte value, which a big-endian host applies to a word it loaded from its buffer before it
writes it to `HASH_DATA` (20_memory.md R48). The block itself never swaps. -/
def byteSwap (n : Size) (v : Word) : Word :=
  le (lowBytes n.bytes v).reverse

/-- One `HASH_DATA` write of the next `n` bytes, if that many remain (30_encoding.md R66). -/
def dataWrite (n : Size) (bs : List Byte) : List Txn :=
  if n.bytes ≤ bs.length then [writeReg .hashData n (le (bs.take n.bytes))] else []

/-- The bytes left after `dataWrite`. -/
def dataRest (n : Size) (bs : List Byte) : List Byte :=
  if n.bytes ≤ bs.length then bs.drop n.bytes else bs

/-- The last `m mod 8` bytes of `hwrite`: a `wr4`, a `wr2` and a `wr1`, in that order (30_encoding.md R66). -/
def hwriteTail (bs : List Byte) : List Txn :=
  dataWrite .b4 bs ++ dataWrite .b2 (dataRest .b4 bs) ++ dataWrite .b1 (dataRest .b2 (dataRest .b4 bs))

/-- The expansion of `hwrite "B"` (30_encoding.md R66). -/
def hwriteTxns (bs : List Byte) : List Txn :=
  (List.range (bs.length / 8)).map (fun i => writeReg .hashData .b8 (le ((bs.drop (8 * i)).take 8)))
    ++ hwriteTail (bs.drop (8 * (bs.length / 8)))

/-- The expansion of `hstart S, L` (30_encoding.md R66), the builder call `new` of R62. -/
def hstartTxns (s l : Word) : List Txn :=
  [writeReg .hashSeed .b8 s, writeReg .hashLen .b8 l, writeReg .hashCtrl .b8 1]

/-- One line of a program: an instruction (30_encoding.md R65) or a pseudo-instruction (R66). -/
inductive Line where
  /-- `rdN REG`. -/
  | rd (n : Size) (off : BitVec 12)
  /-- `wrN REG, VALUE`. -/
  | wr (n : Size) (off : BitVec 12) (v : Word)
  /-- `mix V`. -/
  | mixCall (v : Word)
  /-- `hstart S, L`. -/
  | hstart (s l : Word)
  /-- `hwrite "B"`. -/
  | hwrite (bs : List Byte)
  /-- `hfinish`. -/
  | hfinish
  /-- `hash S, "B"`. -/
  | hashCall (s : Word) (bs : List Byte)
  /-- `rseed S`. -/
  | rseed (s : Word)
  /-- `rnext`. -/
  | rnext
  /-- `rnext32`. -/
  | rnext32
  /-- `rnextf`. -/
  | rnextf
  /-- `rsave`. -/
  | rsave
  /-- `rload C, K`. -/
  | rload (c k : Word)
  /-- `clrerr`. -/
  | clrerr
deriving DecidableEq, Repr

/-- The transactions of a line (30_encoding.md R65, R66). Illegal combinations are encoded as written. -/
def Line.txns : Line → List Txn
  | .rd n off => [busRead off n]
  | .wr n off v => [busWrite off n v]
  | .mixCall v => [writeReg .mixIn .b8 v, readReg .mixOut .b8]
  | .hstart s l => hstartTxns s l
  | .hwrite bs => hwriteTxns bs
  | .hfinish => [readReg .hashDigest .b8]
  | .hashCall s bs =>
    hstartTxns s (BitVec.ofNat 64 bs.length) ++ hwriteTxns bs ++ [readReg .hashDigest .b8]
  | .rseed s => [writeReg .rngSeed .b8 s]
  | .rnext => [readReg .rngNext64 .b8]
  | .rnext32 => [readReg .rngNext32 .b4]
  | .rnextf => [readReg .rngNextF64 .b8]
  | .rsave => [readReg .rngCtr .b8, readReg .rngKey .b8]
  | .rload c k => [writeReg .rngCtr .b8 c, writeReg .rngKey .b8 k]
  | .clrerr => [writeReg .status .b8 0x100]

/-- A call of the source's interface (30_encoding.md R62). -/
inductive SourceCall where
  /-- `mix(value)`. -/
  | mixValue (v : Word)
  /-- `hash(data, seed)`. -/
  | hashData (d : List Byte) (seed : Word)
  /-- The builder's `new(seed)`, with the total length of C2. -/
  | builderNew (seed len : Word)
  /-- The builder's `write(bytes)`. -/
  | builderWrite (bs : List Byte)
  /-- The builder's `finish()`. -/
  | builderFinish
  /-- The RNG's `new(seed)`. -/
  | rngNew (seed : Word)
  /-- `next_u64()`. -/
  | nextU64
  /-- `next_u32()`. -/
  | nextU32
  /-- `next_f64()`. -/
  | nextF64
  /-- The reading half of a clone (fork). -/
  | cloneRead
  /-- The writing half of a clone, in the target. -/
  | cloneWrite (ctr key : Word)
deriving DecidableEq, Repr

/-- `HASH_DATA` writes of the given sizes, one after the other, that carry exactly the given bytes; none if the sizes do
not add up to them (30_encoding.md R62). DESIGN CHOICE: the ignored data bits above a write's size (R59, R64) are 0; R62
does not say whether a write with others still carries the bytes. See assumption 25. -/
def writesOfSizes : List Size → List Byte → Option (List Txn)
  | [], [] => some []
  | [], _ :: _ => none
  | n :: ns, bs =>
    if n.bytes ≤ bs.length then
      (writesOfSizes ns (bs.drop n.bytes)).map fun ts => writeReg .hashData n (le (bs.take n.bytes)) :: ts
    else none

/-- "The bytes in order through `HASH_DATA` writes of any mix of sizes" (30_encoding.md R62), with the ignored data bits 0
(assumption 25). -/
def carriedBy (bs : List Byte) (ts : List Txn) : Prop :=
  ∃ ns : List Size, writesOfSizes ns bs = some ts

/-- The transaction sequences that are a call: every choice of write sizes and of read form that 30_encoding.md R62
allows, with the ignored data bits of each transaction 0 (assumption 25). -/
def SourceCall.isTransactions (c : SourceCall) (ts : List Txn) : Prop :=
  match c with
  | .mixValue v => ts = [writeReg .mixIn .b8 v, readReg .mixOut .b8]
  | .hashData d seed =>
    ∃ ws, carriedBy d ws ∧ ts = hstartTxns seed (BitVec.ofNat 64 d.length) ++ ws ++ [readReg .hashDigest .b8]
  | .builderNew seed len => ts = hstartTxns seed len
  | .builderWrite bs => carriedBy bs ts
  | .builderFinish => ts = [readReg .hashDigest .b8]
  | .rngNew seed => ts = [writeReg .rngSeed .b8 seed]
  | .nextU64 => ts = [readReg .rngNext64 .b8]
  | .nextU32 => ts = [readReg .rngNext32 .b4] ∨ ts = [readReg .rngNext32 .b8]
  | .nextF64 => ts = [readReg .rngNextF64 .b8]
  | .cloneRead => ts = [readReg .rngCtr .b8, readReg .rngKey .b8]
  | .cloneWrite ctr key => ts = [writeReg .rngCtr .b8 ctr, writeReg .rngKey .b8 key]

/-- One line of the assembler for each call, one of the sequences of `SourceCall.isTransactions`. DESIGN CHOICE: where
30_encoding.md R62 allows several, this takes `hwrite`'s split for `hash` and `write`, and the 4-byte read for
`next_u32`. See assumption 25. -/
def SourceCall.line : SourceCall → Line
  | .mixValue v => .mixCall v
  | .hashData d seed => .hashCall seed d
  | .builderNew seed len => .hstart seed len
  | .builderWrite bs => .hwrite bs
  | .builderFinish => .hfinish
  | .rngNew seed => .rseed seed
  | .nextU64 => .rnext
  | .nextU32 => .rnext32
  | .nextF64 => .rnextf
  | .cloneRead => .rsave
  | .cloneWrite ctr key => .rload ctr key

/-- The name of a register (20_memory.md R46). -/
def Reg.name : Reg → String
  | .id => "ID"
  | .status => "STATUS"
  | .mixIn => "MIX_IN"
  | .mixOut => "MIX_OUT"
  | .hashSeed => "HASH_SEED"
  | .hashLen => "HASH_LEN"
  | .hashCtrl => "HASH_CTRL"
  | .hashData => "HASH_DATA"
  | .hashAcc => "HASH_ACC"
  | .hashTail => "HASH_TAIL"
  | .hashCount => "HASH_COUNT"
  | .hashDigest => "HASH_DIGEST"
  | .rngSeed => "RNG_SEED"
  | .rngCtr => "RNG_CTR"
  | .rngKey => "RNG_KEY"
  | .rngNext64 => "RNG_NEXT64"
  | .rngNext32 => "RNG_NEXT32"
  | .rngNextF64 => "RNG_NEXTF64"

/-- A token of a line. -/
inductive Token where
  | word (cs : List Char)
  | comma
  | bytes (bs : List Byte)
deriving DecidableEq, Repr

/-- Where the lexer stands; what it has read is held in reverse. -/
inductive LexMode where
  | between
  | inWord (rev : List Char)
  | inBytes (rev : List Byte)
  | afterBackslash (rev : List Byte)
  | firstHex (rev : List Byte)
  | secondHex (rev : List Byte) (hi : Nat)
  | inComment
deriving DecidableEq, Repr

/-- The value of a hexadecimal digit. -/
def hexDigit (c : Char) : Option Nat :=
  if '0' ≤ c ∧ c ≤ '9' then some (c.toNat - 48)
  else if 'a' ≤ c ∧ c ≤ 'f' then some (c.toNat - 87)
  else if 'A' ≤ c ∧ c ≤ 'F' then some (c.toNat - 55)
  else none

/-- The value of a decimal digit. -/
def decDigit (c : Char) : Option Nat :=
  if '0' ≤ c ∧ c ≤ '9' then some (c.toNat - 48) else none

/-- What an unquoted character does between words: start a comment, a byte string or a word, separate, or stand as
a comma. -/
def lexPlain (toks : List Token) (c : Char) : LexMode × List Token :=
  if c = ';' then (.inComment, toks)
  else if c = '"' then (.inBytes [], toks)
  else if c = ',' then (.between, .comma :: toks)
  else if c = ' ' ∨ c = '\t' then (.between, toks)
  else (.inWord [c], toks)

/-- One character of the lexer. -/
def lexChar (st : LexMode × List Token) (c : Char) : Option (LexMode × List Token) :=
  match st with
  | (.inComment, toks) => some (.inComment, toks)
  | (.between, toks) => some (lexPlain toks c)
  | (.inWord rev, toks) =>
    if c = ';' ∨ c = '"' ∨ c = ',' ∨ c = ' ' ∨ c = '\t' then some (lexPlain (.word rev.reverse :: toks) c)
    else some (.inWord (c :: rev), toks)
  | (.inBytes rev, toks) =>
    if c = '"' then some (.between, .bytes rev.reverse :: toks)
    else if c = '\\' then some (.afterBackslash rev, toks)
    else if c.toNat < 128 then some (.inBytes (BitVec.ofNat 8 c.toNat :: rev), toks)
    else none
  | (.afterBackslash rev, toks) => if c = 'x' then some (.firstHex rev, toks) else none
  | (.firstHex rev, toks) => (hexDigit c).map fun h => (.secondHex rev h, toks)
  | (.secondHex rev h, toks) => (hexDigit c).map fun l => (.inBytes (BitVec.ofNat 8 (16 * h + l) :: rev), toks)

/-- The tokens of a line: none if a byte string is left open or holds what R66 gives no meaning. -/
def lexLine (cs : List Char) : Option (List Token) :=
  match cs.foldlM lexChar (.between, []) with
  | some (.between, toks) => some toks.reverse
  | some (.inComment, toks) => some toks.reverse
  | some (.inWord rev, toks) => some (Token.word rev.reverse :: toks).reverse
  | _ => none

/-- The number that digits of a base denote; none for no digits or a character that is no digit. -/
def digits (base : Nat) (digit : Char → Option Nat) : List Char → Option Nat
  | [] => none
  | cs => cs.foldlM (fun n c => (digit c).map fun k => n * base + k) 0

/-- A number: decimal, or hexadecimal with a `0x` before it (30_encoding.md R65). -/
def parseNat : List Char → Option Nat
  | '0' :: 'x' :: cs => digits 16 hexDigit cs
  | cs => digits 10 decDigit cs

/-- An unsigned 64-bit value (30_encoding.md R65). -/
def parseWord (cs : List Char) : Option Word :=
  match parseNat cs with
  | some n => if n < 2 ^ 64 then some (BitVec.ofNat 64 n) else none
  | none => none

/-- `REG`: a register name or an offset written as a number (30_encoding.md R65). -/
def parseOffset (cs : List Char) : Option (BitVec 12) :=
  match Reg.all.find? (fun r => r.name.toList == cs) with
  | some r => some r.offset
  | none =>
    match parseNat cs with
    | some n => if n < 0x1000 then some (BitVec.ofNat 12 n) else none
    | none => none

/-- The size digit of `rdN` and `wrN`. -/
def parseSize (c : Char) : Option Size :=
  (decDigit c).bind Size.ofBytes

/-- A pseudo-instruction without operands (30_encoding.md R66). -/
def parseBare (w : List Char) : Option Line :=
  if w = "hfinish".toList then some .hfinish
  else if w = "rnext".toList then some .rnext
  else if w = "rnext32".toList then some .rnext32
  else if w = "rnextf".toList then some .rnextf
  else if w = "rsave".toList then some .rsave
  else if w = "clrerr".toList then some .clrerr
  else none

/-- A line with one operand word: `rdN REG`, `mix V` or `rseed S`. -/
def parseOne (w a : List Char) : Option Line :=
  match w with
  | ['r', 'd', n] => (parseSize n).bind fun sz => (parseOffset a).map fun off => .rd sz off
  | _ =>
    if w = "mix".toList then (parseWord a).map .mixCall
    else if w = "rseed".toList then (parseWord a).map .rseed
    else none

/-- A line with two operand words: `wrN REG, VALUE`, `hstart S, L` or `rload C, K`. -/
def parseTwo (w a b : List Char) : Option Line :=
  match w with
  | ['w', 'r', n] =>
    (parseSize n).bind fun sz => (parseOffset a).bind fun off => (parseWord b).map fun v => .wr sz off v
  | _ =>
    if w = "hstart".toList then (parseWord a).bind fun s => (parseWord b).map fun l => .hstart s l
    else if w = "rload".toList then (parseWord a).bind fun c => (parseWord b).map fun k => .rload c k
    else none

/-- The line that tokens form. -/
def parseTokens : List Token → Option Line
  | [.word w] => parseBare w
  | [.word w, .word a] => parseOne w a
  | [.word w, .word a, .comma, .word b] => parseTwo w a b
  | [.word w, .bytes bs] => if w = "hwrite".toList then some (.hwrite bs) else none
  | [.word w, .word a, .comma, .bytes bs] =>
    if w = "hash".toList then (parseWord a).map fun s => .hashCall s bs else none
  | _ => none

/-- The transactions of one line of text (30_encoding.md R65). DESIGN CHOICE: a line with no instruction, blank or with
only a comment, is accepted and has none; R65 gives a line one instruction. See assumption 15. -/
def assembleLine (cs : List Char) : Option (List Txn) :=
  match lexLine cs with
  | some [] => some []
  | some toks => (parseTokens toks).map Line.txns
  | none => none

/-- The transactions of a program, line by line (30_encoding.md R65). -/
def assemble : List (List Char) → Option (List Txn)
  | [] => some []
  | l :: ls => (assembleLine l).bind fun a => (assemble ls).map fun b => a ++ b

end Sys2Proof.Machine
end

