-- ==== Sys2Proof/Safety.lean ====
section
/-! DEFINITION. The terms statements about the block are written in: running a list of inputs, what counts as a safe
state, which elements two states share, the units of spec/00_scope.md R1, and the named hypotheses on the parameters
that spec/93_implementation_defined.md U7 asks for. -/

namespace Sys2Proof.Machine

/-- A transaction as an arriving input. -/
def txnInput (t : Txn) : Input :=
  .access t.d t.v

/-- The block serves a list of inputs, one a step, in order (20_memory.md R53). -/
def runInputs (l : List Input) (s : State) : Host.Outcome State Fault Refusal :=
  Host.Core.run Sys2Proof.core l.length (s.takeInput l)

/-- The block serves a list of transactions in order. -/
def runTxns (ts : List Txn) (s : State) : Host.Outcome State Fault Refusal :=
  runInputs (ts.map txnInput) s

/-- The bus answers to a list of transactions, in order. -/
def answers : List Txn → State → List Response
  | [], _ => []
  | t :: ts, s =>
    match runTxns [t] s with
    | .next u => u.resp :: answers ts u
    | .fault _ => []
    | .refused _ => []

/-- The invariant of 10_state.md R28: every byte of `TBUF` at a position `>= TCNT` is zero. -/
def State.tailClean (s : State) : Bool :=
  s.tbuf >>> (8 * s.tcnt.toNat) == 0

/-- The ten elements hold the values of 10_state.md R43. -/
structure State.AtResetValues (s : State) : Prop where
  mixIn : s.mixIn = 0
  hashSeed : s.hashSeed = 0
  hashLen : s.hashLen = 0
  acc : s.acc = Config.inst.hashInit 0 0
  tbuf : s.tbuf = 0
  tcnt : s.tcnt = 0
  count : s.count = 0
  ctr : s.ctr = 0
  key : s.key = Config.inst.rngSeedXor
  accerr : s.accerr = false

/-- The invariant of the machine: the tail is clean (10_state.md R28), and while reset is asserted the elements hold
their reset values (assumption 5). -/
structure State.Inv (s : State) : Prop where
  tail : s.tailClean = true
  held : s.inReset = true → s.AtResetValues

/-- The derived relation of 10_state.md R42. -/
def State.tailFollowsCount (s : State) : Bool :=
  s.tcnt.toNat == s.count.toNat % 8

/-- No illegal access since `ACCERR` was last cleared (43_control.md R123). -/
def State.NoIllegal (s : State) : Prop :=
  s.accerr = false

/-- The Mixer's state agrees. -/
def SameMixer (s t : State) : Prop :=
  s.mixIn = t.mixIn

/-- The Hasher's state agrees (10_state.md R23, unit Hasher). -/
structure SameHasher (s t : State) : Prop where
  hashSeed : s.hashSeed = t.hashSeed
  hashLen : s.hashLen = t.hashLen
  acc : s.acc = t.acc
  tbuf : s.tbuf = t.tbuf
  tcnt : s.tcnt = t.tcnt
  count : s.count = t.count

/-- The RNG's state agrees (10_state.md R23, unit RNG). -/
structure SameRng (s t : State) : Prop where
  ctr : s.ctr = t.ctr
  key : s.key = t.key

/-- All elements agree but `ACCERR`. -/
structure SameUnits (s t : State) : Prop where
  mixer : SameMixer s t
  hasher : SameHasher s t
  rng : SameRng s t

/-- All ten elements of 10_state.md R23 agree. -/
structure SameElements (s t : State) : Prop where
  units : SameUnits s t
  accerr : s.accerr = t.accerr

/-- Where an instruction's element accesses lie. -/
inductive BlockUnit where
  | mixer
  | hasher
  | rng
  | interface
deriving DecidableEq, Repr

/-- The unit an instruction belongs to (INDEX.md's families). -/
def unitOf : Instr → BlockUnit
  | .wrMixIn _ | .rdMixIn | .rdMixOut => .mixer
  | .wrHashSeed _ | .rdHashSeed | .wrHashLen _ | .rdHashLen | .wrHashCtrl _ | .wrHashData1 _ | .wrHashData2 _
  | .wrHashData4 _ | .wrHashData8 _ | .wrHashAcc _ | .rdHashAcc | .wrHashTail _ | .rdHashTail | .wrHashCount _
  | .rdHashCount | .rdHashDigest => .hasher
  | .wrRngSeed _ | .wrRngCtr _ | .rdRngCtr | .wrRngKey _ | .rdRngKey | .rdRngNext64 | .rdRngNext32
  | .rdRngNext32W | .rdRngNextF64 => .rng
  | .rdId | .rdStatus | .wrStatus _ | .illegal _ _ => .interface

/-- The instruction is ILLEGAL (43_control.md R122). -/
def isIllegal : Instr → Bool
  | .illegal _ _ => true
  | _ => false

/-- The bytes an instruction appends to the message (41_hasher.md R86). -/
def appended : Instr → List Byte
  | .wrHashData1 v => lowBytes 1 v
  | .wrHashData2 v => lowBytes 2 v
  | .wrHashData4 v => lowBytes 4 v
  | .wrHashData8 v => lowBytes 8 v
  | _ => []

/-- A write of `HASH_DATA` (41_hasher.md R86). -/
def isDataWrite : Instr → Bool
  | .wrHashData1 _ | .wrHashData2 _ | .wrHashData4 _ | .wrHashData8 _ => true
  | _ => false

/-- A write of `HASH_ACC`, `HASH_TAIL`, `HASH_COUNT` or `HASH_CTRL`, the writes 41_hasher.md R97 rules out. -/
def disturbsHash : Instr → Bool
  | .wrHashAcc _ | .wrHashTail _ | .wrHashCount _ | .wrHashCtrl _ => true
  | _ => false

/-- A write of `HASH_LEN`. -/
def writesLen : Instr → Bool
  | .wrHashLen _ => true
  | _ => false

/-- A write of `HASH_TAIL` or `HASH_COUNT` (10_state.md R42). -/
def writesTailOrCount : Instr → Bool
  | .wrHashTail _ | .wrHashCount _ => true
  | _ => false

/-- A read of a draw view (20_memory.md R51). -/
def isDraw : Instr → Bool
  | .rdRngNext64 | .rdRngNext32 | .rdRngNext32W | .rdRngNextF64 => true
  | _ => false

/-- A write of `RNG_SEED`, `RNG_CTR` or `RNG_KEY`. -/
def writesRng : Instr → Bool
  | .wrRngSeed _ | .wrRngCtr _ | .wrRngKey _ => true
  | _ => false

/-- A legal read. -/
def isLegalRead : Instr → Bool
  | .rdId | .rdStatus | .rdMixIn | .rdMixOut | .rdHashSeed | .rdHashLen | .rdHashAcc | .rdHashTail | .rdHashCount
  | .rdHashDigest | .rdRngCtr | .rdRngKey | .rdRngNext64 | .rdRngNext32 | .rdRngNext32W | .rdRngNextF64 => true
  | _ => false

/-- The writes 20_memory.md R52 calls idempotent. -/
def isIdempotentWrite : Instr → Bool
  | .wrStatus _ | .wrMixIn _ | .wrHashSeed _ | .wrHashLen _ | .wrHashAcc _ | .wrHashTail _ | .wrHashCount _
  | .wrRngSeed _ | .wrRngCtr _ | .wrRngKey _ => true
  | .wrHashCtrl v => v.getLsbD 0
  | _ => false

/-- How many of the transactions are draws. -/
def drawCount (ts : List Txn) : Nat :=
  ts.countP (fun t => isDraw (decodeTxn t))

/-- What a read of a draw view returns of the drawn word (42_rng.md R106 to R108). -/
def drawView (i : Instr) (x : Word) : Word :=
  match i with
  | .rdRngNext32 => x >>> 32
  | .rdRngNext32W => x >>> 32
  | .rdRngNextF64 => f64bits (x >>> 11)
  | _ => x

/-- The source's length-sensitivity obligation on the parameters (41_hasher.md R100; 93 U7). -/
def LenSens (P : Params) : Prop :=
  ∀ s : Word, mix P (P.hashInit s 0) ≠ mix P (P.hashInit s 1)

/-- The mixer is not the zero function (42_rng.md R115; 93 U7). -/
def NonDegen (P : Params) : Prop :=
  ∃ x : Word, mix P x ≠ 0

/-- A conforming parameter set (00_scope.md R9 to R12; 93 U5). -/
structure ConformingParams (P : Params) : Prop where
  prog : P.mixProg.conforming = true
  lenSens : LenSens P
  inc : P.incOdd = true

end Sys2Proof.Machine
end

