-- ==== Sys2Proof/Certificates/Slice0/Obligations.lean ====
section
/-! DEFINITION. The statements for the provers. Each docstring names the rules of spec/ it formalises. `∀ P : Params`
is "for every parameter set" (spec/93_implementation_defined.md U1); the machine itself runs with `Config.inst`. -/

open Sys2Proof Sys2Proof.Machine

/-! ### Encoding -/

/-- Decoding is inverse to encoding on every well-formed instruction, and encoding gives back every transaction
(a read's data value, which has no meaning, as 0): 30_encoding.md R58, R60, R61. -/
def Obligations.DecodeAndEncodeAgree : Prop :=
  (∀ i : Instr, i.wellFormed = true → decodeTxn (encode i) = i) ∧
  (∀ t : Txn, (decodeTxn t).wellFormed = true ∧
    encode (decodeTxn t) = ⟨t.d, if isWrite t.d then t.v else 0⟩)

/-- The 31 descriptors of 30_encoding.md R61 decode to their instructions, whatever the data value, and each is
`W << 15 | SZ << 12 | OFF` of the rule's columns. -/
def Obligations.LegalDescriptorsOfTheMap : Prop :=
  ∀ v : Word,
    (decode 0x3000 v = .rdId ∧ descriptor false 3 0x000 = 0x3000) ∧
    (decode 0x3008 v = .rdStatus ∧ descriptor false 3 0x008 = 0x3008) ∧
    (decode 0xB008 v = .wrStatus v ∧ descriptor true 3 0x008 = 0xB008) ∧
    (decode 0xB010 v = .wrMixIn v ∧ descriptor true 3 0x010 = 0xB010) ∧
    (decode 0x3010 v = .rdMixIn ∧ descriptor false 3 0x010 = 0x3010) ∧
    (decode 0x3018 v = .rdMixOut ∧ descriptor false 3 0x018 = 0x3018) ∧
    (decode 0xB020 v = .wrHashSeed v ∧ descriptor true 3 0x020 = 0xB020) ∧
    (decode 0x3020 v = .rdHashSeed ∧ descriptor false 3 0x020 = 0x3020) ∧
    (decode 0xB028 v = .wrHashLen v ∧ descriptor true 3 0x028 = 0xB028) ∧
    (decode 0x3028 v = .rdHashLen ∧ descriptor false 3 0x028 = 0x3028) ∧
    (decode 0xB030 v = .wrHashCtrl v ∧ descriptor true 3 0x030 = 0xB030) ∧
    (decode 0x8038 v = .wrHashData1 v ∧ descriptor true 0 0x038 = 0x8038) ∧
    (decode 0x9038 v = .wrHashData2 v ∧ descriptor true 1 0x038 = 0x9038) ∧
    (decode 0xA038 v = .wrHashData4 v ∧ descriptor true 2 0x038 = 0xA038) ∧
    (decode 0xB038 v = .wrHashData8 v ∧ descriptor true 3 0x038 = 0xB038) ∧
    (decode 0xB040 v = .wrHashAcc v ∧ descriptor true 3 0x040 = 0xB040) ∧
    (decode 0x3040 v = .rdHashAcc ∧ descriptor false 3 0x040 = 0x3040) ∧
    (decode 0xB048 v = .wrHashTail v ∧ descriptor true 3 0x048 = 0xB048) ∧
    (decode 0x3048 v = .rdHashTail ∧ descriptor false 3 0x048 = 0x3048) ∧
    (decode 0xB050 v = .wrHashCount v ∧ descriptor true 3 0x050 = 0xB050) ∧
    (decode 0x3050 v = .rdHashCount ∧ descriptor false 3 0x050 = 0x3050) ∧
    (decode 0x3058 v = .rdHashDigest ∧ descriptor false 3 0x058 = 0x3058) ∧
    (decode 0xB060 v = .wrRngSeed v ∧ descriptor true 3 0x060 = 0xB060) ∧
    (decode 0xB068 v = .wrRngCtr v ∧ descriptor true 3 0x068 = 0xB068) ∧
    (decode 0x3068 v = .rdRngCtr ∧ descriptor false 3 0x068 = 0x3068) ∧
    (decode 0xB070 v = .wrRngKey v ∧ descriptor true 3 0x070 = 0xB070) ∧
    (decode 0x3070 v = .rdRngKey ∧ descriptor false 3 0x070 = 0x3070) ∧
    (decode 0x3078 v = .rdRngNext64 ∧ descriptor false 3 0x078 = 0x3078) ∧
    (decode 0x3080 v = .rdRngNext32 ∧ descriptor false 3 0x080 = 0x3080) ∧
    (decode 0x2080 v = .rdRngNext32W ∧ descriptor false 2 0x080 = 0x2080) ∧
    (decode 0x3088 v = .rdRngNextF64 ∧ descriptor false 3 0x088 = 0x3088)

/-- 30_encoding.md R60: a descriptor selects the one row whose match it equals under the mask 0xFFFF, or it is ILLEGAL. -/
def Obligations.DecoderSelectsOneRowOrIllegal : Prop :=
  (opcodeMap.map Row.code).Nodup ∧
  ∀ (d : Desc) (v : Word),
    (∃ r ∈ opcodeMap, r.code = d &&& 0xFFFF ∧ decode d v = r.make v ∧ isIllegal (decode d v) = false) ∨
    ((∀ r ∈ opcodeMap, r.code ≠ d &&& 0xFFFF) ∧ isIllegal (decode d v) = true)

/-- The illegal descriptors are exactly the four groups of 30_encoding.md R63, with the register map of
20_memory.md R46. -/
def Obligations.IllegalSpaceIsTheFourGroups : Prop :=
  ∀ (d : Desc) (v : Word),
    isIllegal (decode d v) = true ↔
      (4 ≤ (szCode d).toNat ∨ 0x090 ≤ (offset d).toNat ∨ (offset d).toNat % 8 ≠ 0 ∨
        ∃ (r : Reg) (n : Size), r.offset = offset d ∧ Size.ofCode (szCode d) = some n ∧
          n ∉ (if isWrite d then r.writes else r.reads))

/-- An access is legal exactly when the register map lists it, and every legal access is naturally aligned:
20_memory.md R46, R49. -/
def Obligations.LegalExactlyWhenTheMapListsIt : Prop :=
  ∀ (d : Desc) (v : Word),
    (isIllegal (decode d v) = false ↔ legalDescriptor d = true) ∧
    (isIllegal (decode d v) = false → (offset d).toNat % 8 = 0)

/-- An 8-byte access that arrives as two 4-byte accesses arrives as two illegal transactions, but for the two registers
that accept a 4-byte access: 20_memory.md R50; 93 U11 (assumption 13). -/
def Obligations.SplitAccessIsTwoIllegalOnes : Prop :=
  ∀ (r : Reg) (v w : Word),
    (r ≠ .hashData → Size.b8 ∈ r.writes →
      isIllegal (decodeTxn (busWrite r.offset .b4 v)) = true ∧
      isIllegal (decodeTxn (busWrite (r.offset + 4) .b4 w)) = true) ∧
    (r ≠ .rngNext32 → Size.b8 ∈ r.reads →
      isIllegal (decodeTxn (busRead r.offset .b4)) = true ∧
      isIllegal (decodeTxn (busRead (r.offset + 4) .b4)) = true)

/-- In the host's address space, an access of n bytes at BASE + off is BusRead(off, n) or BusWrite(off, n, v), and its
descriptor has the fields W, SZ and OFF of 30_encoding.md R58: 00_scope.md R18. -/
def Obligations.HostAccessBecomesBusTransaction : Prop :=
  ∀ (b : Nat) (off : BitVec 12) (n : Size) (v : Word),
    hostAccess b true (b + off.toNat) n.bytes v = some (busWrite off n v) ∧
    hostAccess b false (b + off.toNat) n.bytes v = some (busRead off n) ∧
    (isWrite (busWrite off n v).d = true ∧ szCode (busWrite off n v).d = n.code ∧
      offset (busWrite off n v).d = off ∧ (busWrite off n v).v = v) ∧
    (isWrite (busRead off n).d = false ∧ szCode (busRead off n).d = n.code ∧ offset (busRead off n).d = off) ∧
    2 ^ n.code.toNat = n.bytes

/-- The expansions of the pseudo-instructions, as descriptors and data: 30_encoding.md R66 (that of `hwrite` is in
HwriteCarriesTheBytes). The line that stands for a source call (the model's choice, assumption 25) expands to one of
the sequences that R62 allows for it, and `next_u32` allows both reads of RNG_NEXT32, whose meaningless data bits are
0 (assumption 25). -/
def Obligations.PseudoInstructionExpansions : Prop :=
  (∀ call : SourceCall, call.isTransactions call.line.txns) ∧
  (∀ ts : List Txn, SourceCall.nextU32.isTransactions ts ↔ ts = [⟨0x2080, 0⟩] ∨ ts = [⟨0x3080, 0⟩]) ∧
  ∀ (v s l c k : Word) (bs : List Byte),
    Line.txns (.mixCall v) = [⟨0xB010, v⟩, ⟨0x3018, 0⟩] ∧
    Line.txns (.hstart s l) = [⟨0xB020, s⟩, ⟨0xB028, l⟩, ⟨0xB030, 1⟩] ∧
    Line.txns .hfinish = [⟨0x3058, 0⟩] ∧
    Line.txns (.hashCall s bs) =
      Line.txns (.hstart s (BitVec.ofNat 64 bs.length)) ++ Line.txns (.hwrite bs) ++ Line.txns .hfinish ∧
    Line.txns (.rseed s) = [⟨0xB060, s⟩] ∧
    Line.txns .rnext = [⟨0x3078, 0⟩] ∧
    Line.txns .rnext32 = [⟨0x2080, 0⟩] ∧
    Line.txns .rnextf = [⟨0x3088, 0⟩] ∧
    Line.txns .rsave = [⟨0x3068, 0⟩, ⟨0x3070, 0⟩] ∧
    Line.txns (.rload c k) = [⟨0xB068, c⟩, ⟨0xB070, k⟩] ∧
    Line.txns .clrerr = [⟨0xB008, 0x100⟩]

/-! ### The step, the reset input, sequences -/

/-- A step runs the arriving transaction's instruction on the state with that input taken: 00_scope.md R20;
20_memory.md R53; 30_encoding.md R60. -/
def Obligations.StepRunsTheArrivingTransaction : Prop :=
  ∀ (s : State) (d : Desc) (v : Word) (rest : List Input),
    s.inputs = .access d v :: rest → s.inReset = false →
      step s = exec (decode d v) { s with inputs := rest }

/-- THE MODEL'S CHOICE (assumption 3; the spec gives no step without a transaction): with nothing arriving a step keeps
the state. -/
def Obligations.IdleStepKeepsTheState : Prop :=
  ∀ s : State, s.inputs = [] → step s = .next s

/-- The state after reset holds the values of 10_state.md R43. From any state, START with seed 0 and declared length 0
leaves the Hasher's elements at them, and a seeding with 0 the RNG's. -/
def Obligations.ResetStateHoldsTheResetValues : Prop :=
  State.reset.AtResetValues ∧
  (∀ s : State, ∃ t, exec (.wrHashCtrl 1) { s with hashSeed := 0, hashLen := 0 } = .next t ∧
    SameHasher State.reset t) ∧
  (∀ s : State, ∃ t, exec (.wrRngSeed 0) s = .next t ∧ SameRng State.reset t)

/-- The reset input. 70_reset_and_hazards.md R135: a transaction cut short leaves no effect in the elements, a
transaction during reset has none, on release every element holds its reset value, and no transaction resets the
block or leaves reset. THE MODEL'S CHOICE: what the elements hold while reset is asserted, the same whatever they were
cut short by (assumption 5), and that a transaction during reset is consumed with no answer (assumption 6). -/
def Obligations.ResetInputGivesTheResetValues : Prop :=
  (∀ (s : State) (cut : Option Txn) (rest : List Input), s.inputs = .assertReset cut :: rest →
    ∃ t, step s = .next t ∧ t.inReset = true ∧ t.inputs = rest ∧
      ∀ (cut' : Option Txn) (t' : State),
        step { s with inputs := .assertReset cut' :: rest } = .next t' → SameElements t t') ∧
  (∀ (s : State) (d : Desc) (v : Word) (rest : List Input), s.inputs = .access d v :: rest → s.inReset = true →
    ∃ t, step s = .next t ∧ SameElements t s ∧ t.inReset = true ∧ t.inputs = rest ∧ t.resp = .idle) ∧
  (∀ (s : State) (rest : List Input), s.inputs = .releaseReset :: rest → s.inReset = true →
    ∃ t, step s = .next t ∧ t.AtResetValues ∧ t.inReset = false ∧ t.inputs = rest) ∧
  (∀ (i : Instr) (s t : State), exec i s = .next t → t.inReset = s.inReset)

/-- No transaction faults and none is refused, so no run of any length from any state stops: 60_exceptions.md R124. -/
def Obligations.NoRunEverStops : Prop :=
  (∀ (i : Instr) (s : State), ∃ t, exec i s = .next t) ∧
  (∀ (k : Nat) (s : State), ∃ t, Host.Core.run Sys2Proof.core k s = .next t)

/-- Serving one list of inputs and then another is serving them in one sequence: 20_memory.md R53, R54. -/
def Obligations.RunsCompose : Prop :=
  ∀ (a b : List Input) (s : State),
    ∃ t u, runInputs a s = .next t ∧ runInputs b t = .next u ∧ runInputs (a ++ b) s = .next u

/-! ### Invariants -/

/-- Every step keeps the machine's invariant: unused tail bytes are zero (10_state.md R28), and while reset is
asserted the elements hold their reset values (the model's choice, assumption 5). -/
def Obligations.StepKeepsTheMachineInvariant : Prop :=
  ∀ s t : State, s.Inv → step s = .next t → t.Inv

/-- The state after reset meets the machine's invariant, and reset is not asserted in it. -/
def Obligations.ResetMeetsTheMachineInvariant : Prop :=
  State.reset.Inv ∧ State.reset.inReset = false

/-- What a clean tail means (10_state.md R28): every byte of TBUF at a position i >= TCNT is zero, and then the
zero-extended TBUF is the little-endian word of the TCNT pending bytes. -/
def Obligations.CleanTailIsTheZeroPaddedWord : Prop :=
  ∀ s : State,
    (s.tailClean = true ↔ ∀ i, s.tcnt.toNat ≤ i → i < 7 → byteAt (zext64 s.tbuf) i = 0) ∧
    (s.tailClean = true → zext64 s.tbuf = le ((List.range s.tcnt.toNat).map (byteAt (zext64 s.tbuf))))

/-- TCNT = COUNT mod 8 is kept by every step but a write of HASH_TAIL or HASH_COUNT, and START establishes it from any
state: 10_state.md R42. -/
def Obligations.TailCountFollowsCount : Prop :=
  (∀ s t : State, s.tailFollowsCount = true → step s = .next t →
    (∀ d v rest, s.inputs = .access d v :: rest → s.inReset = false → writesTailOrCount (decode d v) = false) →
    t.tailFollowsCount = true) ∧
  (∀ (s t : State) (v : Word), v.getLsbD 0 = true → exec (.wrHashCtrl v) s = .next t → t.tailFollowsCount = true)

/-- ACCERR is set by every illegal transaction, cleared only by a write of STATUS with bit 8 set, and changed by no
other transaction: 10_state.md R35. -/
def Obligations.AccErrIsSticky : Prop :=
  ∀ (i : Instr) (s t : State), exec i s = .next t →
    (isIllegal i = true → t.accerr = true) ∧
    (∀ v, i = .wrStatus v → t.accerr = (s.accerr && !v.getLsbD 8)) ∧
    (isIllegal i = false → (∀ v, i ≠ .wrStatus v) → t.accerr = s.accerr)

/-- ACCERR influences nothing but the reads of STATUS: whatever it was, a sequence of transactions without RD_STATUS
gets the same answers and leaves the same units: 43_control.md R123. -/
def Obligations.AccErrInfluencesOnlyStatusReads : Prop :=
  ∀ (ts : List Txn) (s : State) (b : Bool), s.inReset = false → (∀ t ∈ ts, decodeTxn t ≠ .rdStatus) →
    answers ts { s with accerr := b } = answers ts s ∧
    ∃ t u, runTxns ts s = .next t ∧ runTxns ts { s with accerr := b } = .next u ∧ SameUnits t u

/-- The Mixer, the Hasher and the RNG do not depend on each other: an instruction changes only its own unit, and what
it does there and answers depends only on its own unit: 00_scope.md R1. -/
def Obligations.UnitsDoNotDependOnEachOther : Prop :=
  ∀ (i : Instr) (s t : State), exec i s = .next t →
    (unitOf i ≠ .mixer → SameMixer s t) ∧
    (unitOf i ≠ .hasher → SameHasher s t) ∧
    (unitOf i ≠ .rng → SameRng s t) ∧
    (unitOf i ≠ .interface → s.accerr = t.accerr) ∧
    ∀ (s' t' : State), exec i s' = .next t' →
      (unitOf i = .mixer → SameMixer s s' → SameMixer t t' ∧ t.resp = t'.resp) ∧
      (unitOf i = .hasher → SameHasher s s' → SameHasher t t' ∧ t.resp = t'.resp) ∧
      (unitOf i = .rng → SameRng s s' → SameRng t t' ∧ t.resp = t'.resp)

/-- Every legal read that is no draw changes no element and gives the same answer when repeated; a draw advances CTR by
the increment and changes nothing else: 20_memory.md R51. -/
def Obligations.OnlyDrawReadsHaveSideEffects : Prop :=
  ∀ (i : Instr) (s t : State), isLegalRead i = true → exec i s = .next t →
    (isDraw i = false → SameElements s t ∧ ∃ u, exec i t = .next u ∧ SameElements t u ∧ u.resp = t.resp) ∧
    (isDraw i = true → t = { s with ctr := s.ctr + Config.inst.rngInc, resp := t.resp })

/-- Writing twice what 20_memory.md R52 calls idempotent leaves the same state as writing it once; a write of HASH_DATA
does not. -/
def Obligations.RepeatedWritesAreIdempotent : Prop :=
  ∀ (i : Instr) (s t u : State), exec i s = .next t → exec i t = .next u →
    (isIdempotentWrite i = true → u = t) ∧
    (isDataWrite i = true → u.count = t.count + BitVec.ofNat 64 (appended i).length ∧ u.count ≠ t.count)

/-- A read answers with an n-byte value whose bits 63:8n are zero, a write is accepted: 30_encoding.md R59;
60_exceptions.md R125. -/
def Obligations.AnswersFitTheAccessSize : Prop :=
  ∀ (d : Desc) (v : Word) (s t : State), exec (decode d v) s = .next t →
    (isWrite d = true → t.resp = .ack) ∧
    (isWrite d = false → ∃ x, t.resp = .data x ∧
      ∀ n, Size.ofCode (szCode d) = some n → x >>> (8 * n.bytes) = 0)

/-- Ignored data bits have no effect, are not checked and set no flag: 30_encoding.md R64. -/
def Obligations.IgnoredDataBitsHaveNoEffect : Prop :=
  (∀ (v w : Word) (s : State),
    (v.getLsbD 0 = w.getLsbD 0 → exec (.wrHashCtrl v) s = exec (.wrHashCtrl w) s) ∧
    (v.getLsbD 8 = w.getLsbD 8 → exec (.wrStatus v) s = exec (.wrStatus w) s) ∧
    (v.setWidth 59 = w.setWidth 59 → exec (.wrHashTail v) s = exec (.wrHashTail w) s) ∧
    (v.setWidth 8 = w.setWidth 8 → exec (.wrHashData1 v) s = exec (.wrHashData1 w) s) ∧
    (v.setWidth 16 = w.setWidth 16 → exec (.wrHashData2 v) s = exec (.wrHashData2 w) s) ∧
    (v.setWidth 32 = w.setWidth 32 → exec (.wrHashData4 v) s = exec (.wrHashData4 w) s)) ∧
  (∀ (d : Desc) (v w : Word), isIllegal (decode d v) = isIllegal (decode d w)) ∧
  (∀ (d : Desc) (v : Word) (s t : State), isIllegal (decode d v) = false → exec (decode d v) s = .next t →
    t.accerr = true → s.accerr = true)

/-! ### The Mixer -/

/-- One mixer step (40_mixer.md R68): the three kinds, with amounts taken modulo 64; a rotation by r is bit i of the
result from bit (i + r) mod 64; an amount of 0 modulo 64 gives 0 and does not conform. -/
def Obligations.MixerStepsActAsDefined : Prop :=
  ∀ (r : Nat) (c y : Word),
    (∀ i, i < 64 → (mixStep (.xrr r) y).getLsbD i = (y.getLsbD i ^^ y.getLsbD ((i + r) % 64))) ∧
    (∀ i, i < 64 → (mixStep (.xsr r) y).getLsbD i = (y.getLsbD i ^^ y.getLsbD (i + r % 64))) ∧
    (mixStep (.mul c) y).toNat = y.toNat * c.toNat % 2 ^ 64 ∧
    (r % 64 = 0 → mixStep (.xrr r) y = 0 ∧ mixStep (.xsr r) y = 0 ∧
      MixStep.conforming (.xrr r) = false ∧ MixStep.conforming (.xsr r) = false)

/-- A mixer of the reference shape is the five lines of 40_mixer.md R69, and every mixer applies its steps in list
order (R67). -/
def Obligations.MixerAppliesItsStepsInOrder : Prop :=
  (∀ (P : Params) (x : Word) (st : MixStep) (l : List MixStep),
    mix { P with mixProg := ⟨st, l⟩ } x = l.foldl (fun y s => mixStep s y) (mixStep st x)) ∧
  (∀ (P : Params) (r1 r2 r3 : Nat) (c1 c2 x : Word),
    mix { P with mixProg := MixProg.reference r1 c1 r2 c2 r3 } x =
      (let x1 := x ^^^ x.rotateRight r1
       let x2 := x1 * c1
       let x3 := x2 ^^^ x2.rotateRight r2
       let x4 := x3 * c2
       x4 ^^^ x4.rotateRight r3))

/-- `mix(0) = 0` for every program, because each step maps 0 to 0: 40_mixer.md R70. -/
def Obligations.MixOfZeroIsZero : Prop :=
  (∀ st : MixStep, mixStep st 0 = 0) ∧ ∀ P : Params, mix P 0 = 0

/-- If the first step is a rotation, complementing the input changes nothing; in particular the all-ones word mixes
to 0: 40_mixer.md R75. -/
def Obligations.MixIgnoresComplement : Prop :=
  ∀ (P : Params) (r : Nat), P.mixProg.first = .xrr r →
    (∀ x : Word, mix P (~~~x) = mix P x) ∧ mix P 0xFFFFFFFFFFFFFFFF = 0

/-- If the first step is XRR(r), every x that the rotation keeps mixes to 0; for r prime to 64 these are only 0 and all
ones, for r = 32 they are the words with equal halves: 40_mixer.md R76. -/
def Obligations.RotationFixedPointsMixToZero : Prop :=
  (∀ (P : Params) (r : Nat), P.mixProg.first = .xrr r →
    (∀ x : Word, rotr64 x (r % 64) = x → mix P x = 0) ∧ (r = 32 → mix P 0x0000000100000001 = 0)) ∧
  (∀ (r : Nat) (x : Word), Nat.gcd r 64 = 1 → (rotr64 x (r % 64) = x ↔ x = 0 ∨ x = 0xFFFFFFFFFFFFFFFF)) ∧
  (∀ x : Word, rotr64 x 32 = x ↔ BitVec.extractLsb' 0 32 x = BitVec.extractLsb' 32 32 x)

/-- If the last step is a rotation, every output has an even number of one bits, so 1 is never an output; if it is
XRR(32), the halves of every output are equal: 40_mixer.md R77. -/
def Obligations.LastRotationMakesPopcountEven : Prop :=
  ∀ (P : Params) (r : Nat), P.mixProg.steps.getLast? = some (.xrr r) →
    (∀ x : Word, popcount (mix P x) % 2 = 0) ∧ (∀ x : Word, mix P x ≠ 1) ∧ ¬ Function.Surjective (mix P) ∧
    (r = 32 → ∀ x : Word, BitVec.extractLsb' 0 32 (mix P x) = BitVec.extractLsb' 32 32 (mix P x))

/-- A mixer with a rotation step is not injective; one with only shifts by 1 to 63 and multiplications by odd constants
is a bijection: 40_mixer.md R78. -/
def Obligations.RotationMixerIsNotInjective : Prop :=
  (∀ (P : Params) (r : Nat), MixStep.xrr r ∈ P.mixProg.steps → ¬ Function.Injective (mix P)) ∧
  (∀ P : Params,
    (∀ st ∈ P.mixProg.steps,
      (∃ r, st = .xsr r ∧ 1 ≤ r ∧ r ≤ 63) ∨ (∃ c : Word, st = .mul c ∧ c.getLsbD 0 = true)) →
    Function.Bijective (mix P))

/-- The Mixer's transactions (40_mixer.md R71 to R73): each completes in every state with exactly this next state. -/
def Obligations.MixerTransactionResults : Prop :=
  ∀ (s : State) (v : Word),
    exec (.wrMixIn v) s = .next { s with mixIn := v, resp := .ack } ∧
    exec .rdMixIn s = .next { s with resp := .data s.mixIn } ∧
    exec .rdMixOut s = .next { s with resp := .data (mix Config.inst s.mixIn) }

/-- The call mix(value): the write and the read return mix of the value, whatever came before, and reading MIX_OUT into
MIX_IN again chains the mixer: 30_encoding.md R62; 40_mixer.md R71, R73. -/
def Obligations.MixCallReturnsTheMix : Prop :=
  ∀ (s : State) (v : Word), s.inReset = false →
    answers (Line.txns (.mixCall v)) s = [.ack, .data (mix Config.inst v)] ∧
    answers (Line.txns (.mixCall v) ++ Line.txns (.mixCall (mix Config.inst v))) s =
      [.ack, .data (mix Config.inst v), .ack, .data (mix Config.inst (mix Config.inst v))]

/-! ### The Hasher -/

/-- The byte-append step, 41_hasher.md R84: a byte waits at position TCNT, or the eighth completes the chunk
le(7 pending bytes, b), which is mixed into ACC; COUNT advances; a clean tail stays clean; nothing else changes. -/
def Obligations.AppendByteActsAsDefined : Prop :=
  ∀ (P : Params) (s : State) (b : Byte),
    (s.tcnt.toNat < 7 →
      ∃ tb : BitVec 56,
        s.appendByte P b = { s with tbuf := tb, tcnt := s.tcnt + 1, count := s.count + 1 } ∧
        byteAt (zext64 tb) s.tcnt.toNat = b ∧
        ∀ i, i < 7 → i ≠ s.tcnt.toNat → byteAt (zext64 tb) i = byteAt (zext64 s.tbuf) i) ∧
    (s.tcnt.toNat = 7 →
      s.appendByte P b =
        { s with
          acc := mix P (s.acc ^^^ le ((List.range 7).map (byteAt (zext64 s.tbuf)) ++ [b]))
          tbuf := 0
          tcnt := 0
          count := s.count + 1 }) ∧
    (s.tailClean = true → (s.appendByte P b).tailClean = true)

/-- START, 41_hasher.md R85: bit 0 set starts a new hash; bit 0 clear changes nothing but the answer. -/
def Obligations.StartResults : Prop :=
  ∀ (s : State) (v : Word),
    (v.getLsbD 0 = true →
      exec (.wrHashCtrl v) s = .next
        { s with
          acc := Config.inst.hashInit s.hashSeed s.hashLen
          tbuf := 0
          tcnt := 0
          count := 0
          resp := .ack }) ∧
    (v.getLsbD 0 = false → exec (.wrHashCtrl v) s = .next { s with resp := .ack })

/-- The writes of HASH_DATA, 41_hasher.md R86: append of v[7:0], v[15:8], ... in that order, n of them. -/
def Obligations.HashDataResults : Prop :=
  ∀ (s : State) (v : Word),
    let app := fun (bs : List Byte) => bs.foldl (State.appendByte Config.inst) s
    exec (.wrHashData1 v) s = .next { app [v.setWidth 8] with resp := .ack } ∧
    exec (.wrHashData2 v) s = .next { app [v.setWidth 8, (v >>> 8).setWidth 8] with resp := .ack } ∧
    exec (.wrHashData4 v) s = .next
      { app [v.setWidth 8, (v >>> 8).setWidth 8, (v >>> 16).setWidth 8, (v >>> 24).setWidth 8] with resp := .ack } ∧
    exec (.wrHashData8 v) s = .next
      { app [v.setWidth 8, (v >>> 8).setWidth 8, (v >>> 16).setWidth 8, (v >>> 24).setWidth 8,
          (v >>> 32).setWidth 8, (v >>> 40).setWidth 8, (v >>> 48).setWidth 8, (v >>> 56).setWidth 8]
        with resp := .ack }

/-- The corner cases of 41_hasher.md R86 for an 8-byte write: it completes exactly one chunk, made of the TCNT pending
bytes and the first 8 - TCNT bytes of v, and leaves its last TCNT bytes pending; with TCNT = 0 the chunk is v itself. -/
def Obligations.EightByteWriteIsOneChunk : Prop :=
  ∀ (s : State) (v : Word),
    exec (.wrHashData8 v) s = .next
      { s with
        acc := mix Config.inst
          (s.acc ^^^ (zext64 (keepTail s.tcnt.toNat s.tbuf) ||| (v <<< (8 * s.tcnt.toNat))))
        tbuf := (v >>> (64 - 8 * s.tcnt.toNat)).setWidth 56
        count := s.count + 8
        resp := .ack } ∧
    (s.tcnt = 0 → exec (.wrHashData8 v) s = .next
      { s with acc := mix Config.inst (s.acc ^^^ v), tbuf := 0, tcnt := 0, count := s.count + 8, resp := .ack })

/-- The Hasher's plain registers, 41_hasher.md R87 to R93 and R96: each transaction completes in every state with
exactly this next state. -/
def Obligations.HasherRegisterResults : Prop :=
  ∀ (s : State) (v : Word),
    exec .rdHashDigest s = .next { s with resp := .data (mix Config.inst (s.acc ^^^ s.tbuf.setWidth 64)) } ∧
    exec (.wrHashSeed v) s = .next { s with hashSeed := v, resp := .ack } ∧
    exec .rdHashSeed s = .next { s with resp := .data s.hashSeed } ∧
    exec (.wrHashLen v) s = .next { s with hashLen := v, resp := .ack } ∧
    exec .rdHashLen s = .next { s with resp := .data s.hashLen } ∧
    exec (.wrHashAcc v) s = .next { s with acc := v, resp := .ack } ∧
    exec .rdHashAcc s = .next { s with resp := .data s.acc } ∧
    exec (.wrHashCount v) s = .next { s with count := v, resp := .ack } ∧
    exec .rdHashCount s = .next { s with resp := .data s.count }

/-- HASH_TAIL, 41_hasher.md R94 and R95 with 10_state.md R36: the write takes TCNT from bits 58:56 and keeps only the
bytes below it, leaves a clean tail, and a read then shows TCNT in bits 58:56, TBUF in bits 55:0 and zero above. -/
def Obligations.HashTailWriteAndRead : Prop :=
  ∀ (s : State) (v : Word),
    ∃ tb : BitVec 56,
      exec (.wrHashTail v) s = .next
        { s with tcnt := BitVec.extractLsb' 56 3 v, tbuf := tb, resp := .ack } ∧
      (∀ i, i < 7 → byteAt (zext64 tb) i =
        if i < (BitVec.extractLsb' 56 3 v).toNat then byteAt v i else 0) ∧
      exec .rdHashTail s = .next
        { s with resp := .data (s.tcnt.setWidth 64 <<< 56 ||| s.tbuf.setWidth 64) } ∧
      { s with tcnt := BitVec.extractLsb' 56 3 v, tbuf := tb }.tailClean = true ∧
      (s.tcnt.setWidth 64 <<< 56 ||| s.tbuf.setWidth 64).toNat < 2 ^ 59

/-- The engine and the function agree, 41_hasher.md R97: after HASH_SEED, HASH_LEN and START, any transactions that
write none of HASH_ACC, HASH_TAIL, HASH_COUNT and HASH_CTRL, then RD_HASH_DIGEST answers the digest of the appended
bytes with the declared length; and LEN_MATCH compares their number with that length (while HASH_LEN is not written
again, assumption 14). -/
def Obligations.EngineComputesTheDigest : Prop :=
  ∀ (s : State) (seed len ctrl : Word) (ts : List Txn),
    s.inReset = false → ctrl.getLsbD 0 = true → (∀ t ∈ ts, disturbsHash (decodeTxn t) = false) →
    ∃ u,
      runTxns ([⟨0xB020, seed⟩, ⟨0xB028, len⟩, ⟨0xB030, ctrl⟩] ++ ts ++ [⟨0x3058, 0⟩]) s = .next u ∧
      u.resp = .data
        (hashDeclared Config.inst (ts.flatMap fun t => appended (decodeTxn t)) seed len) ∧
      (len = BitVec.ofNat 64 (ts.flatMap fun t => appended (decodeTxn t)).length →
        u.resp = .data (hash Config.inst (ts.flatMap fun t => appended (decodeTxn t)) seed)) ∧
      ((∀ t ∈ ts, writesLen (decodeTxn t) = false) →
        u.statusWord.getLsbD 0 =
          decide ((ts.flatMap fun t => appended (decodeTxn t)).length % 2 ^ 64 = len.toNat))

/-- Streaming equivalence, 41_hasher.md R98: the state reached by HASH_DATA writes, with digest reads between them,
depends only on the concatenation of the bytes. -/
def Obligations.StreamingDependsOnlyOnTheBytes : Prop :=
  ∀ (s : State) (ts us : List Txn), s.inReset = false →
    (∀ t ∈ ts, isDataWrite (decodeTxn t) = true ∨ decodeTxn t = .rdHashDigest) →
    (∀ t ∈ us, isDataWrite (decodeTxn t) = true ∨ decodeTxn t = .rdHashDigest) →
    (ts.flatMap fun t => appended (decodeTxn t)) = (us.flatMap fun t => appended (decodeTxn t)) →
    ∃ t u, runTxns ts s = .next t ∧ runTxns us s = .next u ∧ SameElements t u ∧
      t.digest Config.inst = u.digest Config.inst

/-- The empty message: 41_hasher.md R82. -/
def Obligations.EmptyMessageDigest : Prop :=
  ∀ (P : Params) (s : Word), hash P [] s = mix P (P.hashInit s 0)

/-- Length sensitivity, 41_hasher.md R100: the two digests, and the source's requirement holds exactly when the named
obligation on the parameters does. -/
def Obligations.LengthSensitivityIsAnObligationOnParameters : Prop :=
  ∀ P : Params,
    (∀ s : Word, hash P [] s = mix P (P.hashInit s 0) ∧ hash P [0] s = mix P (P.hashInit s 1)) ∧
    ((∀ s : Word, hash P [] s ≠ hash P [0] s) ↔ LenSens P)

/-- Complemented chunks, 41_hasher.md R101: with a rotation first, complementing the bytes of any full chunk leaves the
digest unchanged. -/
def Obligations.ComplementedChunkKeepsTheDigest : Prop :=
  ∀ (P : Params) (r : Nat), P.mixProg.first = .xrr r →
    (∀ (d : List Byte) (s : Word) (i : Nat), 8 * i + 8 ≤ d.length →
      hash P (d.take (8 * i) ++ ((d.drop (8 * i)).take 8).map (fun b => b ^^^ 0xFF) ++ d.drop (8 * i + 8)) s
        = hash P d s) ∧
    (∀ s : Word, hash P [0x01, 0x02, 0x03, 0x04, 0x05, 0x06, 0x07, 0x08] s
      = hash P [0xFE, 0xFD, 0xFC, 0xFB, 0xFA, 0xF9, 0xF8, 0xF7] s)

/-- Save and restore, 41_hasher.md R102: reading HASH_ACC, HASH_TAIL, HASH_COUNT and HASH_LEN of a block with a clean
tail and writing the values, in any state of the block, restores the computation: ACC, TBUF, TCNT, COUNT and HASH_LEN. -/
def Obligations.SaveAndRestoreAreComplete : Prop :=
  ∀ (s u : State), s.inReset = false → u.inReset = false → s.tailClean = true →
    ∃ a b c l,
      answers [⟨0x3040, 0⟩, ⟨0x3048, 0⟩, ⟨0x3050, 0⟩, ⟨0x3028, 0⟩] s = [.data a, .data b, .data c, .data l] ∧
      ∃ t, runTxns [⟨0xB040, a⟩, ⟨0xB048, b⟩, ⟨0xB050, c⟩, ⟨0xB028, l⟩] u = .next t ∧
        t.acc = s.acc ∧ t.tbuf = s.tbuf ∧ t.tcnt = s.tcnt ∧ t.count = s.count ∧ t.hashLen = s.hashLen

/-- hwrite "B" for m bytes, 30_encoding.md R66: floor(m / 8) writes wr8 of the next 8 bytes, then a wr4, a wr2 and a wr1
of the next 4, 2 and 1 bytes, each only if that many remain, in that order. So it is a sequence of HASH_DATA writes
that carry exactly the bytes of B in order, at most three of them shorter than 8 bytes. -/
def Obligations.HwriteCarriesTheBytes : Prop :=
  ∀ bs : List Byte,
    (let next := fun i n => le ((bs.drop i).take n)
     let q := bs.length / 8
     let r := bs.length % 8
     Line.txns (.hwrite bs) =
      (List.range q).map (fun i => ⟨0xB038, next (8 * i) 8⟩)
        ++ (if 4 ≤ r then [⟨0xA038, next (8 * q) 4⟩] else [])
        ++ (if 2 ≤ r % 4 then [⟨0x9038, next (8 * q + (r - r % 4)) 2⟩] else [])
        ++ (if r % 2 = 1 then [⟨0x8038, next (bs.length - 1) 1⟩] else [])) ∧
    (∀ t ∈ Line.txns (.hwrite bs), isDataWrite (decodeTxn t) = true) ∧
    ((Line.txns (.hwrite bs)).flatMap fun t => appended (decodeTxn t)) = bs ∧
    (Line.txns (.hwrite bs)).countP (fun t => szCode t.d != 3) ≤ 3 ∧
    (Line.txns (.hwrite bs)).length ≤ bs.length / 8 + 3

/-- The call hash(data, seed), 30_encoding.md R62; 41_hasher.md R80, R97: every transaction sequence that is the call,
with the bytes written in any mix of sizes, ends from any state with the answer hash_v(data, seed), with LEN_MATCH set
and no illegal access added; the pseudo-instruction `hash` is one of them. THE MODEL'S CHOICE (assumption 25): the
ignored data bits of the sequence's transactions are 0. -/
def Obligations.HashCallReturnsTheDigest : Prop :=
  ∀ (s : State) (seed : Word) (d : List Byte), s.inReset = false →
    (∀ ts : List Txn, (SourceCall.hashData d seed).isTransactions ts →
      ∃ u, runTxns ts s = .next u ∧
        u.resp = .data (hash Config.inst d seed) ∧ u.lenMatch = true ∧ u.accerr = s.accerr) ∧
    ∃ u, runTxns (Line.txns (.hashCall seed d)) s = .next u ∧
      u.resp = .data (hash Config.inst d seed) ∧ u.lenMatch = true ∧ u.accerr = s.accerr

/-! ### The RNG -/

/-- The RNG's register transactions, 42_rng.md R104 and R109 to R112: each completes in every state with exactly this
next state. -/
def Obligations.RngRegisterResults : Prop :=
  ∀ (s : State) (v : Word),
    exec (.wrRngSeed v) s = .next { s with ctr := 0, key := v ^^^ Config.inst.rngSeedXor, resp := .ack } ∧
    exec (.wrRngCtr v) s = .next { s with ctr := v, resp := .ack } ∧
    exec .rdRngCtr s = .next { s with resp := .data s.ctr } ∧
    exec (.wrRngKey v) s = .next { s with key := v, resp := .ack } ∧
    exec .rdRngKey s = .next { s with resp := .data s.key }

/-- The draws, 42_rng.md R105 to R108: CTR advances first, the new CTR plus KEY is mixed, and each view returns its part
of the word; nothing else changes. -/
def Obligations.DrawResults : Prop :=
  ∀ s : State,
    let c := s.ctr + Config.inst.rngInc
    let x := mix Config.inst (c + s.key)
    exec .rdRngNext64 s = .next { s with ctr := c, resp := .data x } ∧
    exec .rdRngNext32 s = .next { s with ctr := c, resp := .data (x >>> 32) } ∧
    exec .rdRngNext32W s = .next { s with ctr := c, resp := .data (x >>> 32) } ∧
    exec .rdRngNextF64 s = .next { s with ctr := c, resp := .data (f64bits (x >>> 11)) }

/-- f64bits, 42_rng.md R108, read as a binary64: for m = 0 it is +0; for 0 < m < 2^53 the sign is 0, the exponent field
e lies in 970 to 1022 and (2^52 + f) * 2^(e - 970) = m * 2^52, that is, the number is exactly m * 2^-53. -/
def Obligations.FloatDrawIsExact : Prop :=
  f64bits 0 = 0 ∧
  ∀ m : Word, m ≠ 0 → m.toNat < 2 ^ 53 →
    (f64bits m).getLsbD 63 = false ∧
    970 ≤ (BitVec.extractLsb' 52 11 (f64bits m)).toNat ∧
    (BitVec.extractLsb' 52 11 (f64bits m)).toNat ≤ 1022 ∧
    (2 ^ 52 + (BitVec.extractLsb' 0 52 (f64bits m)).toNat)
        * 2 ^ ((BitVec.extractLsb' 52 11 (f64bits m)).toNat - 970) = m.toNat * 2 ^ 52 ∧
    (0x3CA0000000000000 : Word).toNat ≤ (f64bits m).toNat ∧
    (f64bits m).toNat ≤ (0x3FEFFFFFFFFFFFFF : Word).toNat

/-- The closed form, 42_rng.md R113: after WR_RNG_SEED with s and any transactions that write no RNG register and hold
j - 1 draws, the next draw, by any view, has x = mix(j * RNG_INC + (s ^ RNG_SEED_XOR)) and leaves CTR = j * RNG_INC. -/
def Obligations.DrawsHaveTheClosedForm : Prop :=
  ∀ (st : State) (s : Word) (ts : List Txn) (last : Txn), st.inReset = false →
    (∀ t ∈ ts, writesRng (decodeTxn t) = false) → isDraw (decodeTxn last) = true →
    ∃ u, runTxns ([⟨0xB060, s⟩] ++ ts ++ [last]) st = .next u ∧
      u.ctr = BitVec.ofNat 64 (drawCount ts + 1) * Config.inst.rngInc ∧
      u.resp = .data (drawView (decodeTxn last)
        (mix Config.inst (BitVec.ofNat 64 (drawCount ts + 1) * Config.inst.rngInc
          + (s ^^^ Config.inst.rngSeedXor))))

/-- The period of the counter, 42_rng.md R114: with an odd increment, 2^64 consecutive draws give 2^64 distinct values
and exactly every 2^64 draws return; if 2^t is the largest power of two dividing the increment, the period is
2^64 / 2^t; with increment 0 it is 1. -/
def Obligations.CounterPeriod : Prop :=
  ∀ (P : Params) (s : State),
    (P.incOdd = true →
      (∀ j k, j < 2 ^ 64 → k < 2 ^ 64 → ((State.advance P)^[j] s).ctr = ((State.advance P)^[k] s).ctr → j = k) ∧
      (∀ k, ((State.advance P)^[k] s).ctr = s.ctr ↔ 2 ^ 64 ∣ k)) ∧
    (∀ t m : Nat, P.rngInc.toNat = 2 ^ t * m → m % 2 = 1 →
      ∀ k, ((State.advance P)^[k] s).ctr = s.ctr ↔ 2 ^ 64 / 2 ^ t ∣ k) ∧
    (P.rngInc = 0 → ∀ k, ((State.advance P)^[k] s).ctr = s.ctr)

/-- Non-degeneracy, 42_rng.md R115: with an odd increment, the inputs of 2^64 consecutive draws are all values, so from
any state some draw is not zero unless mix is the zero function, which a program with MUL(0) is; with a rotation
first, y and its complement draw the same. -/
def Obligations.DrawsCoverAllMixerInputs : Prop :=
  ∀ (P : Params) (s : State),
    (P.incOdd = true →
      (∀ y : Word, ∃ k, k < 2 ^ 64 ∧ ((State.advance P)^[k + 1] s).ctr + s.key = y) ∧
      (NonDegen P → ∃ k, k < 2 ^ 64 ∧ ((State.advance P)^[k] s).drawn P ≠ 0)) ∧
    (MixStep.mul 0 ∈ P.mixProg.steps → ∀ x : Word, mix P x = 0) ∧
    (∀ r, P.mixProg.first = .xrr r → ∀ (t : State),
      (t.advance P).ctr + t.key = ~~~((s.advance P).ctr + s.key) → t.drawn P = s.drawn P)

/-- Fork, 42_rng.md R116: writing the values read from RNG_CTR and RNG_KEY into any block gives it the same answers to
every later sequence of RNG transactions. -/
def Obligations.ForkedStreamsAgree : Prop :=
  ∀ (s t : State) (ts : List Txn), s.inReset = false → t.inReset = false →
    (∀ x ∈ ts, unitOf (decodeTxn x) = .rng) →
    ∃ c k t', answers (Line.txns .rsave) s = [.data c, .data k] ∧
      runTxns (Line.txns (.rload c k)) t = .next t' ∧ answers ts t' = answers ts s

/-! ### Identification, status, illegal accesses, the state after reset -/

/-- ID and STATUS, 43_control.md R119 to R121 with the fields of 10_state.md R31 and R34: each transaction completes in
every state with exactly this next state. -/
def Obligations.ControlRegisterResults : Prop :=
  ∀ (s : State) (v : Word),
    exec .rdId s = .next
      { s with resp := .data (0x4D58330000000100 ||| BitVec.ofNat 64 Config.version.number) } ∧
    exec .rdStatus s = .next
      { s with
        resp := .data ((if s.accerr then 0x100 else 0) ||| (s.tcnt.setWidth 64 <<< 1)
          ||| (if s.count = s.hashLen then 1 else 0)) } ∧
    exec (.wrStatus v) s = .next
      { s with accerr := if v.getLsbD 8 then false else s.accerr, resp := .ack }

/-- The fields of the word STATUS reads as, 10_state.md R34. -/
def Obligations.StatusFields : Prop :=
  ∀ s : State,
    s.statusWord.getLsbD 0 = decide (s.count = s.hashLen) ∧
    BitVec.extractLsb' 1 3 s.statusWord = s.tcnt ∧
    BitVec.extractLsb' 4 4 s.statusWord = 0 ∧
    s.statusWord.getLsbD 8 = s.accerr ∧
    BitVec.extractLsb' 9 55 s.statusWord = 0

/-- The fields of ID, 10_state.md R31: VERSION, IFREV = 1, a reserved zero and MAGIC; for the three versions the words
0x4D58330000000101 to 0x4D58330000000103. -/
def Obligations.IdentificationFields : Prop :=
  (∀ ver : Version,
    BitVec.extractLsb' 0 8 (idWord ver) = BitVec.ofNat 8 ver.number ∧
    BitVec.extractLsb' 8 8 (idWord ver) = 0x01 ∧
    BitVec.extractLsb' 16 16 (idWord ver) = 0x0000 ∧
    BitVec.extractLsb' 32 32 (idWord ver) = 0x4D583300) ∧
  idWord .v1 = 0x4D58330000000101 ∧ idWord .v2 = 0x4D58330000000102 ∧ idWord .v3 = 0x4D58330000000103

/-- ILLEGAL, 43_control.md R122: a transaction whose descriptor is none of the 31 sets ACCERR, a read answers 0, a write
is accepted and discarded, no other element changes, and the block goes on. -/
def Obligations.IllegalTransactionResult : Prop :=
  (∀ (d : Desc) (v : Word) (s : State),
    exec (.illegal d v) s = .next
      { s with accerr := true, resp := if d.getLsbD 15 then .ack else .data 0 }) ∧
  (∀ (d : Desc) (v : Word) (s : State) (rest : List Input),
    s.inputs = .access d v :: rest → s.inReset = false → (∀ r ∈ opcodeMap, r.code ≠ d) →
      step s = .next
        { s with accerr := true, inputs := rest, resp := if d.getLsbD 15 then .ack else .data 0 })

/-- What the reset state means, 70_reset_and_hazards.md R137: MIX_OUT reads 0, STATUS reads 1, bytes written give the
digest with seed 0 and declared length 0 with LEN_MATCH = 0, and the draws are those of seed 0. -/
def Obligations.ResetStateMeaning : Prop :=
  answers [⟨0x3018, 0⟩, ⟨0x3008, 0⟩] State.reset = [.data 0, .data 1] ∧
  (∀ bs : List Byte, ∃ u, runTxns (Line.txns (.hwrite bs) ++ Line.txns .hfinish) State.reset = .next u ∧
    u.resp = .data (hashDeclared Config.inst bs 0 0) ∧
    (bs = [] → u.resp = .data (hash Config.inst [] 0)) ∧
    (0 < bs.length → bs.length < 2 ^ 64 → u.lenMatch = false)) ∧
  (∀ ts : List Txn, (∀ x ∈ ts, unitOf (decodeTxn x) = .rng) →
    ∃ t, runTxns [⟨0xB060, 0⟩] State.reset = .next t ∧ answers ts State.reset = answers ts t)
end

