-- ==== Sys2Proof/Laws/Bits.lean ====
section
/-! SUPPORT. What each bit-level helper does, bit by bit. -/

namespace Sys2Proof.Machine

theorem rotr64_eq_rotateRight (a : Word) (r : Nat) : rotr64 a r = a.rotateRight r := by
  unfold rotr64
  rw [BitVec.rotateRight_def]
  split
  · next h => simp [h]
  · rfl

/-- Bit `i` of a right rotation by `r` is bit `(i + r) mod 64`. -/
theorem rotr64_getLsbD (a : Word) (r i : Nat) (hi : i < 64) :
    (rotr64 a r).getLsbD i = a.getLsbD ((i + r) % 64) := by
  rw [rotr64_eq_rotateRight, ← BitVec.rotateRight_mod_eq_rotateRight,
    BitVec.getLsbD_rotateRight]
  have hr : r % 64 < 64 := Nat.mod_lt _ (by decide)
  rw [Nat.mod_eq_of_lt hr]
  by_cases h : i < 64 - r % 64
  · rw [decide_eq_true h, cond_true]; congr 1; omega
  · rw [decide_eq_false h, cond_false, decide_eq_true hi, Bool.true_and]; congr 1; omega

@[simp] theorem zext64_getLsbD {w : Nat} (v : BitVec w) (i : Nat) :
    (zext64 v).getLsbD i = (decide (i < 64) && v.getLsbD i) := by
  simp [zext64]

@[simp] theorem byteAt_getLsbD (v : Word) (i j : Nat) :
    (byteAt v i).getLsbD j = (decide (j < 8) && v.getLsbD (8 * i + j)) := by
  simp [byteAt]

/-- The mask of the low `k` bits, bit by bit. -/
theorem lowMask_getLsbD (w k i : Nat) :
    (BitVec.ofNat w (2 ^ k - 1)).getLsbD i = (decide (i < w) && decide (i < k)) := by
  rw [BitVec.getLsbD_ofNat, Nat.testBit_two_pow_sub_one]

@[simp] theorem keepBytes_getLsbD (n : Nat) (v : Word) (i : Nat) :
    (keepBytes n v).getLsbD i = (v.getLsbD i && decide (i < 8 * n)) := by
  unfold keepBytes
  rw [BitVec.getLsbD_and, lowMask_getLsbD]
  by_cases h : i < 64
  · simp [h]
  · simp [BitVec.getLsbD_of_ge v i (by omega)]

@[simp] theorem keepTail_getLsbD (n : Nat) (t : BitVec 56) (i : Nat) :
    (keepTail n t).getLsbD i = (t.getLsbD i && decide (i < 8 * n)) := by
  unfold keepTail
  rw [BitVec.getLsbD_and, lowMask_getLsbD]
  by_cases h : i < 56
  · simp [h]
  · simp [BitVec.getLsbD_of_ge t i (by omega)]

/-- Field assignment of one byte: inside the byte the new bits, elsewhere the old ones. -/
theorem putByte_getLsbD (t : BitVec 56) (i : Nat) (b : Byte) (j : Nat) (hj : j < 56) :
    (putByte t i b).getLsbD j =
      if 8 * i ≤ j ∧ j < 8 * i + 8 then b.getLsbD (j - 8 * i) else t.getLsbD j := by
  have hff : ∀ k, (0xFF#56).getLsbD k = decide (k < 8) := by
    intro k
    have := lowMask_getLsbD 56 8 k
    simp only [show (2 : Nat) ^ 8 - 1 = 0xFF from rfl] at this
    rw [this]
    by_cases h : k < 8
    · simp [h, show k < 56 by omega]
    · simp [h]
  unfold putByte
  rw [BitVec.getLsbD_or, BitVec.getLsbD_and, BitVec.getLsbD_not, BitVec.getLsbD_shiftLeft,
    BitVec.getLsbD_shiftLeft, hff, BitVec.getLsbD_setWidth]
  by_cases h1 : j < 8 * i
  · simp [h1, hj, show ¬ 8 * i ≤ j by omega]
  · by_cases h2 : j - 8 * i < 8
    · simp [h1, h2, hj, show 8 * i ≤ j by omega, show j < 8 * i + 8 by omega, show j - 8 * i < 56 by omega]
    · rw [BitVec.getLsbD_of_ge b (j - 8 * i) (by omega)]
      simp [h1, h2, hj, show ¬ j < 8 * i + 8 by omega]

/-- Packing one byte more: the byte below, the rest shifted up, with no carry between them. -/
theorem le_cons_eq_or (b : Byte) (bs : List Byte) : le (b :: bs) = zext64 b ||| (le bs <<< 8) := by
  show zext64 b + (le bs <<< 8) = _
  apply BitVec.add_eq_or_of_and_eq_zero
  ext i hi
  simp only [← BitVec.getLsbD_eq_getElem]
  rw [BitVec.getLsbD_and, zext64_getLsbD, BitVec.getLsbD_shiftLeft]
  by_cases h : i < 8
  · simp [h]
  · simp [BitVec.getLsbD_of_ge b i (by omega)]

/-- Bit `j` of a little-endian word is bit `j mod 8` of byte `j / 8`; above the last byte it is 0. -/
theorem le_getLsbD (bs : List Byte) (j : Nat) (hj : j < 64) :
    (le bs).getLsbD j = ((bs[j / 8]?).getD 0).getLsbD (j % 8) := by
  induction bs generalizing j with
  | nil => simp [le]
  | cons b bs ih =>
    rw [le_cons_eq_or, BitVec.getLsbD_or, zext64_getLsbD, BitVec.getLsbD_shiftLeft]
    by_cases h : j < 8
    · have h0 : j / 8 = 0 := by omega
      simp [hj, h, h0, Nat.mod_eq_of_lt h]
    · have h1 : j / 8 = (j - 8) / 8 + 1 := by omega
      have h2 : j % 8 = (j - 8) % 8 := by omega
      rw [BitVec.getLsbD_of_ge b j (by omega), ih (j - 8) (by omega), h1, h2]
      simp [hj, h]

@[simp] theorem lowBytes_length (n : Nat) (v : Word) : (lowBytes n v).length = n := by
  simp [lowBytes]

/-- Packing the low bytes of a word gives the word with the bytes above cleared. -/
theorem le_lowBytes (n : Nat) (v : Word) : le (lowBytes n v) = keepBytes n v := by
  ext j hj
  simp only [← BitVec.getLsbD_eq_getElem]
  rw [le_getLsbD _ _ hj, keepBytes_getLsbD]
  by_cases h : j < 8 * n
  · have h1 : j / 8 < n := by omega
    have h2 : 8 * (j / 8) + j % 8 = j := by omega
    have h3 : (lowBytes n v)[j / 8]? = some (byteAt v (j / 8)) := by simp [lowBytes, h1]
    rw [h3, Option.getD_some, byteAt_getLsbD, h2, decide_eq_true (Nat.mod_lt _ (by decide)), decide_eq_true h,
      Bool.true_and, Bool.and_true]
  · have h1 : ¬ j / 8 < n := by omega
    rw [List.getElem?_eq_none (by simp; omega), decide_eq_false h]
    simp

end Sys2Proof.Machine
end

