-- ==== Sys2Proof/Laws/Assembler.lean ====
section
/-! SUPPORT. What a split of bytes into `HASH_DATA` writes is, whatever the sizes (30_encoding.md R62). -/

namespace Sys2Proof.Machine

/-- The low bytes of a packed word are the bytes packed. -/
theorem lowBytes_le (bs : List Byte) (h : bs.length ≤ 8) : lowBytes bs.length (le bs) = bs := by
  apply List.ext_getElem (by simp)
  intro i h1 h2
  simp only [lowBytes, List.getElem_map, List.getElem_range]
  apply BitVec.eq_of_getLsbD_eq
  intro j hj
  rw [byteAt_getLsbD, le_getLsbD _ _ (by omega), show (8 * i + j) / 8 = i by omega,
    show (8 * i + j) % 8 = j by omega, List.getElem?_eq_getElem h2]
  simp [hj]

/-- A write of `HASH_DATA` decodes to a data write. -/
theorem writeHashData_isDataWrite (n : Size) (v : Word) :
    isDataWrite (decodeTxn (writeReg .hashData n v)) = true := by
  cases n <;> rfl

/-- A write of `HASH_DATA` that carries `n` bytes appends them. -/
theorem writeHashData_appended (n : Size) (bs : List Byte) (h : bs.length = n.bytes) :
    appended (decodeTxn (writeReg .hashData n (le bs))) = bs := by
  have h8 : bs.length ≤ 8 := by rw [h]; cases n <;> decide
  have e : appended (decodeTxn (writeReg .hashData n (le bs))) = lowBytes n.bytes (le bs) := by cases n <;> rfl
  rw [e, ← h, lowBytes_le bs h8]

/-- If the sizes add up, the writes are data writes and append exactly the bytes. -/
theorem writesOfSizes_carries (ns : List Size) (bs : List Byte) (ts : List Txn)
    (h : writesOfSizes ns bs = some ts) :
    (∀ t ∈ ts, isDataWrite (decodeTxn t) = true) ∧ (ts.flatMap fun t => appended (decodeTxn t)) = bs := by
  induction ns generalizing bs ts with
  | nil =>
    cases bs with
    | nil => injection h with h; subst h; simp
    | cons b bs => cases h
  | cons n ns ih =>
    rw [writesOfSizes] at h
    split at h
    · next hn =>
      obtain ⟨us, hu, rfl⟩ := Option.map_eq_some_iff.1 h
      obtain ⟨h1, h2⟩ := ih _ _ hu
      refine ⟨?_, ?_⟩
      · intro t ht
        rcases List.mem_cons.1 ht with rfl | ht
        · exact writeHashData_isDataWrite n _
        · exact h1 t ht
      · rw [List.flatMap_cons, h2, writeHashData_appended n _ (by simpa using hn), List.take_append_drop]
    · cases h

end Sys2Proof.Machine
end

