-- ==== Sys2Proof/Laws/Decode.lean ====
section
/-! SUPPORT. The fields of a descriptor, and what the decoder does with a legal and with another descriptor. -/

namespace Sys2Proof

open Machine

/-- A descriptor is put together from its three fields. -/
theorem descriptor_of_fields (d : Desc) : descriptor (isWrite d) (szCode d) (offset d) = d := by
  ext i hi
  simp only [← BitVec.getLsbD_eq_getElem]
  simp only [descriptor, isWrite, szCode, offset, BitVec.getLsbD_or, BitVec.getLsbD_shiftLeft,
    BitVec.getLsbD_setWidth, BitVec.getLsbD_extractLsb', BitVec.getLsbD_ofBool]
  rcases (show i < 12 ∨ (12 ≤ i ∧ i < 15) ∨ i = 15 by omega) with h | ⟨h, h'⟩ | h
  · simp [h, hi, show i < 15 by omega]
  · simp [h', hi, show ¬ i < 12 by omega, show i - 12 < 16 by omega, show i - 12 < 3 by omega,
      show 12 + (i - 12) = i by omega]
  · subst h; simp

/-- The fields of a put-together descriptor. -/
theorem fields_of_descriptor (w : Bool) (sz : BitVec 3) (off : BitVec 12) :
    isWrite (descriptor w sz off) = w ∧ szCode (descriptor w sz off) = sz ∧ offset (descriptor w sz off) = off := by
  refine ⟨?_, ?_, ?_⟩
  · simp [isWrite, descriptor]
  · ext i hi
    simp only [← BitVec.getLsbD_eq_getElem]
    simp [szCode, descriptor, hi, show 12 + i < 16 by omega, show 12 + i < 15 by omega,
      show ¬ 12 + i < 12 by omega]
  · ext i hi
    simp only [← BitVec.getLsbD_eq_getElem]
    simp [offset, descriptor, hi, show i < 16 by omega, show i < 15 by omega]

/-- The decoder on a descriptor that is no row of the opcode map. -/
theorem decode_of_no_row (d : Desc) (v : Word) (h : ∀ r ∈ opcodeMap, r.code ≠ d) :
    decode d v = .illegal d (illegalData d v) := by
  have : opcodeMap.find? (fun r => r.code == d) = none := by
    rw [List.find?_eq_none]
    intro r hr
    simpa using h r hr
  simp [decode, this]

/-- The decoder answers with a row of the opcode map, or with ILLEGAL. -/
theorem decode_cases (d : Desc) (v : Word) :
    (∃ r ∈ opcodeMap, r.code = d ∧ decode d v = r.make v) ∨
    ((∀ r ∈ opcodeMap, r.code ≠ d) ∧ decode d v = .illegal d (illegalData d v)) := by
  by_cases h : ∀ r ∈ opcodeMap, r.code ≠ d
  · exact .inr ⟨h, decode_of_no_row d v h⟩
  · left
    have hsome : (opcodeMap.find? (fun r => r.code == d)).isSome := by
      rw [List.find?_isSome]
      push Not at h
      obtain ⟨r, hr, hd⟩ := h
      exact ⟨r, hr, by simp [hd]⟩
    obtain ⟨r, hr⟩ := Option.isSome_iff_exists.mp hsome
    refine ⟨r, List.mem_of_find?_eq_some hr, ?_, by simp [decode, hr]⟩
    simpa using List.find?_some hr

end Sys2Proof
end

