-- ==== Sys2Proof/Laws/State.lean ====
section
/-! SUPPORT. One lemma per field per update of the state, each true by definition. -/

namespace Sys2Proof.Machine

@[simp] theorem State.setMixIn_mixIn (s : State) (v : Word) : (s.setMixIn v).mixIn = v := rfl
@[simp] theorem State.setMixIn_hashSeed (s : State) (v : Word) : (s.setMixIn v).hashSeed = s.hashSeed := rfl
@[simp] theorem State.setMixIn_hashLen (s : State) (v : Word) : (s.setMixIn v).hashLen = s.hashLen := rfl
@[simp] theorem State.setMixIn_acc (s : State) (v : Word) : (s.setMixIn v).acc = s.acc := rfl
@[simp] theorem State.setMixIn_tbuf (s : State) (v : Word) : (s.setMixIn v).tbuf = s.tbuf := rfl
@[simp] theorem State.setMixIn_tcnt (s : State) (v : Word) : (s.setMixIn v).tcnt = s.tcnt := rfl
@[simp] theorem State.setMixIn_count (s : State) (v : Word) : (s.setMixIn v).count = s.count := rfl
@[simp] theorem State.setMixIn_ctr (s : State) (v : Word) : (s.setMixIn v).ctr = s.ctr := rfl
@[simp] theorem State.setMixIn_key (s : State) (v : Word) : (s.setMixIn v).key = s.key := rfl
@[simp] theorem State.setMixIn_accerr (s : State) (v : Word) : (s.setMixIn v).accerr = s.accerr := rfl
@[simp] theorem State.setMixIn_inReset (s : State) (v : Word) : (s.setMixIn v).inReset = s.inReset := rfl
@[simp] theorem State.setMixIn_inputs (s : State) (v : Word) : (s.setMixIn v).inputs = s.inputs := rfl
@[simp] theorem State.setMixIn_resp (s : State) (v : Word) : (s.setMixIn v).resp = s.resp := rfl
@[simp] theorem State.setMixIn_freeCount (s : State) (v : Word) : (s.setMixIn v).freeCount = s.freeCount := rfl

@[simp] theorem State.setHashSeed_mixIn (s : State) (v : Word) : (s.setHashSeed v).mixIn = s.mixIn := rfl
@[simp] theorem State.setHashSeed_hashSeed (s : State) (v : Word) : (s.setHashSeed v).hashSeed = v := rfl
@[simp] theorem State.setHashSeed_hashLen (s : State) (v : Word) : (s.setHashSeed v).hashLen = s.hashLen := rfl
@[simp] theorem State.setHashSeed_acc (s : State) (v : Word) : (s.setHashSeed v).acc = s.acc := rfl
@[simp] theorem State.setHashSeed_tbuf (s : State) (v : Word) : (s.setHashSeed v).tbuf = s.tbuf := rfl
@[simp] theorem State.setHashSeed_tcnt (s : State) (v : Word) : (s.setHashSeed v).tcnt = s.tcnt := rfl
@[simp] theorem State.setHashSeed_count (s : State) (v : Word) : (s.setHashSeed v).count = s.count := rfl
@[simp] theorem State.setHashSeed_ctr (s : State) (v : Word) : (s.setHashSeed v).ctr = s.ctr := rfl
@[simp] theorem State.setHashSeed_key (s : State) (v : Word) : (s.setHashSeed v).key = s.key := rfl
@[simp] theorem State.setHashSeed_accerr (s : State) (v : Word) : (s.setHashSeed v).accerr = s.accerr := rfl
@[simp] theorem State.setHashSeed_inReset (s : State) (v : Word) : (s.setHashSeed v).inReset = s.inReset := rfl
@[simp] theorem State.setHashSeed_inputs (s : State) (v : Word) : (s.setHashSeed v).inputs = s.inputs := rfl
@[simp] theorem State.setHashSeed_resp (s : State) (v : Word) : (s.setHashSeed v).resp = s.resp := rfl
@[simp] theorem State.setHashSeed_freeCount (s : State) (v : Word) : (s.setHashSeed v).freeCount = s.freeCount := rfl

@[simp] theorem State.setHashLen_mixIn (s : State) (v : Word) : (s.setHashLen v).mixIn = s.mixIn := rfl
@[simp] theorem State.setHashLen_hashSeed (s : State) (v : Word) : (s.setHashLen v).hashSeed = s.hashSeed := rfl
@[simp] theorem State.setHashLen_hashLen (s : State) (v : Word) : (s.setHashLen v).hashLen = v := rfl
@[simp] theorem State.setHashLen_acc (s : State) (v : Word) : (s.setHashLen v).acc = s.acc := rfl
@[simp] theorem State.setHashLen_tbuf (s : State) (v : Word) : (s.setHashLen v).tbuf = s.tbuf := rfl
@[simp] theorem State.setHashLen_tcnt (s : State) (v : Word) : (s.setHashLen v).tcnt = s.tcnt := rfl
@[simp] theorem State.setHashLen_count (s : State) (v : Word) : (s.setHashLen v).count = s.count := rfl
@[simp] theorem State.setHashLen_ctr (s : State) (v : Word) : (s.setHashLen v).ctr = s.ctr := rfl
@[simp] theorem State.setHashLen_key (s : State) (v : Word) : (s.setHashLen v).key = s.key := rfl
@[simp] theorem State.setHashLen_accerr (s : State) (v : Word) : (s.setHashLen v).accerr = s.accerr := rfl
@[simp] theorem State.setHashLen_inReset (s : State) (v : Word) : (s.setHashLen v).inReset = s.inReset := rfl
@[simp] theorem State.setHashLen_inputs (s : State) (v : Word) : (s.setHashLen v).inputs = s.inputs := rfl
@[simp] theorem State.setHashLen_resp (s : State) (v : Word) : (s.setHashLen v).resp = s.resp := rfl
@[simp] theorem State.setHashLen_freeCount (s : State) (v : Word) : (s.setHashLen v).freeCount = s.freeCount := rfl

@[simp] theorem State.setAcc_mixIn (s : State) (v : Word) : (s.setAcc v).mixIn = s.mixIn := rfl
@[simp] theorem State.setAcc_hashSeed (s : State) (v : Word) : (s.setAcc v).hashSeed = s.hashSeed := rfl
@[simp] theorem State.setAcc_hashLen (s : State) (v : Word) : (s.setAcc v).hashLen = s.hashLen := rfl
@[simp] theorem State.setAcc_acc (s : State) (v : Word) : (s.setAcc v).acc = v := rfl
@[simp] theorem State.setAcc_tbuf (s : State) (v : Word) : (s.setAcc v).tbuf = s.tbuf := rfl
@[simp] theorem State.setAcc_tcnt (s : State) (v : Word) : (s.setAcc v).tcnt = s.tcnt := rfl
@[simp] theorem State.setAcc_count (s : State) (v : Word) : (s.setAcc v).count = s.count := rfl
@[simp] theorem State.setAcc_ctr (s : State) (v : Word) : (s.setAcc v).ctr = s.ctr := rfl
@[simp] theorem State.setAcc_key (s : State) (v : Word) : (s.setAcc v).key = s.key := rfl
@[simp] theorem State.setAcc_accerr (s : State) (v : Word) : (s.setAcc v).accerr = s.accerr := rfl
@[simp] theorem State.setAcc_inReset (s : State) (v : Word) : (s.setAcc v).inReset = s.inReset := rfl
@[simp] theorem State.setAcc_inputs (s : State) (v : Word) : (s.setAcc v).inputs = s.inputs := rfl
@[simp] theorem State.setAcc_resp (s : State) (v : Word) : (s.setAcc v).resp = s.resp := rfl
@[simp] theorem State.setAcc_freeCount (s : State) (v : Word) : (s.setAcc v).freeCount = s.freeCount := rfl

@[simp] theorem State.setTail_mixIn (s : State) (n : BitVec 3) (t : BitVec 56) : (s.setTail n t).mixIn = s.mixIn := rfl
@[simp] theorem State.setTail_hashSeed (s : State) (n : BitVec 3) (t : BitVec 56) : (s.setTail n t).hashSeed = s.hashSeed := rfl
@[simp] theorem State.setTail_hashLen (s : State) (n : BitVec 3) (t : BitVec 56) : (s.setTail n t).hashLen = s.hashLen := rfl
@[simp] theorem State.setTail_acc (s : State) (n : BitVec 3) (t : BitVec 56) : (s.setTail n t).acc = s.acc := rfl
@[simp] theorem State.setTail_tbuf (s : State) (n : BitVec 3) (t : BitVec 56) : (s.setTail n t).tbuf = t := rfl
@[simp] theorem State.setTail_tcnt (s : State) (n : BitVec 3) (t : BitVec 56) : (s.setTail n t).tcnt = n := rfl
@[simp] theorem State.setTail_count (s : State) (n : BitVec 3) (t : BitVec 56) : (s.setTail n t).count = s.count := rfl
@[simp] theorem State.setTail_ctr (s : State) (n : BitVec 3) (t : BitVec 56) : (s.setTail n t).ctr = s.ctr := rfl
@[simp] theorem State.setTail_key (s : State) (n : BitVec 3) (t : BitVec 56) : (s.setTail n t).key = s.key := rfl
@[simp] theorem State.setTail_accerr (s : State) (n : BitVec 3) (t : BitVec 56) : (s.setTail n t).accerr = s.accerr := rfl
@[simp] theorem State.setTail_inReset (s : State) (n : BitVec 3) (t : BitVec 56) : (s.setTail n t).inReset = s.inReset := rfl
@[simp] theorem State.setTail_inputs (s : State) (n : BitVec 3) (t : BitVec 56) : (s.setTail n t).inputs = s.inputs := rfl
@[simp] theorem State.setTail_resp (s : State) (n : BitVec 3) (t : BitVec 56) : (s.setTail n t).resp = s.resp := rfl
@[simp] theorem State.setTail_freeCount (s : State) (n : BitVec 3) (t : BitVec 56) : (s.setTail n t).freeCount = s.freeCount := rfl

@[simp] theorem State.setCount_mixIn (s : State) (v : Word) : (s.setCount v).mixIn = s.mixIn := rfl
@[simp] theorem State.setCount_hashSeed (s : State) (v : Word) : (s.setCount v).hashSeed = s.hashSeed := rfl
@[simp] theorem State.setCount_hashLen (s : State) (v : Word) : (s.setCount v).hashLen = s.hashLen := rfl
@[simp] theorem State.setCount_acc (s : State) (v : Word) : (s.setCount v).acc = s.acc := rfl
@[simp] theorem State.setCount_tbuf (s : State) (v : Word) : (s.setCount v).tbuf = s.tbuf := rfl
@[simp] theorem State.setCount_tcnt (s : State) (v : Word) : (s.setCount v).tcnt = s.tcnt := rfl
@[simp] theorem State.setCount_count (s : State) (v : Word) : (s.setCount v).count = v := rfl
@[simp] theorem State.setCount_ctr (s : State) (v : Word) : (s.setCount v).ctr = s.ctr := rfl
@[simp] theorem State.setCount_key (s : State) (v : Word) : (s.setCount v).key = s.key := rfl
@[simp] theorem State.setCount_accerr (s : State) (v : Word) : (s.setCount v).accerr = s.accerr := rfl
@[simp] theorem State.setCount_inReset (s : State) (v : Word) : (s.setCount v).inReset = s.inReset := rfl
@[simp] theorem State.setCount_inputs (s : State) (v : Word) : (s.setCount v).inputs = s.inputs := rfl
@[simp] theorem State.setCount_resp (s : State) (v : Word) : (s.setCount v).resp = s.resp := rfl
@[simp] theorem State.setCount_freeCount (s : State) (v : Word) : (s.setCount v).freeCount = s.freeCount := rfl

@[simp] theorem State.setCtr_mixIn (s : State) (v : Word) : (s.setCtr v).mixIn = s.mixIn := rfl
@[simp] theorem State.setCtr_hashSeed (s : State) (v : Word) : (s.setCtr v).hashSeed = s.hashSeed := rfl
@[simp] theorem State.setCtr_hashLen (s : State) (v : Word) : (s.setCtr v).hashLen = s.hashLen := rfl
@[simp] theorem State.setCtr_acc (s : State) (v : Word) : (s.setCtr v).acc = s.acc := rfl
@[simp] theorem State.setCtr_tbuf (s : State) (v : Word) : (s.setCtr v).tbuf = s.tbuf := rfl
@[simp] theorem State.setCtr_tcnt (s : State) (v : Word) : (s.setCtr v).tcnt = s.tcnt := rfl
@[simp] theorem State.setCtr_count (s : State) (v : Word) : (s.setCtr v).count = s.count := rfl
@[simp] theorem State.setCtr_ctr (s : State) (v : Word) : (s.setCtr v).ctr = v := rfl
@[simp] theorem State.setCtr_key (s : State) (v : Word) : (s.setCtr v).key = s.key := rfl
@[simp] theorem State.setCtr_accerr (s : State) (v : Word) : (s.setCtr v).accerr = s.accerr := rfl
@[simp] theorem State.setCtr_inReset (s : State) (v : Word) : (s.setCtr v).inReset = s.inReset := rfl
@[simp] theorem State.setCtr_inputs (s : State) (v : Word) : (s.setCtr v).inputs = s.inputs := rfl
@[simp] theorem State.setCtr_resp (s : State) (v : Word) : (s.setCtr v).resp = s.resp := rfl
@[simp] theorem State.setCtr_freeCount (s : State) (v : Word) : (s.setCtr v).freeCount = s.freeCount := rfl

@[simp] theorem State.setKey_mixIn (s : State) (v : Word) : (s.setKey v).mixIn = s.mixIn := rfl
@[simp] theorem State.setKey_hashSeed (s : State) (v : Word) : (s.setKey v).hashSeed = s.hashSeed := rfl
@[simp] theorem State.setKey_hashLen (s : State) (v : Word) : (s.setKey v).hashLen = s.hashLen := rfl
@[simp] theorem State.setKey_acc (s : State) (v : Word) : (s.setKey v).acc = s.acc := rfl
@[simp] theorem State.setKey_tbuf (s : State) (v : Word) : (s.setKey v).tbuf = s.tbuf := rfl
@[simp] theorem State.setKey_tcnt (s : State) (v : Word) : (s.setKey v).tcnt = s.tcnt := rfl
@[simp] theorem State.setKey_count (s : State) (v : Word) : (s.setKey v).count = s.count := rfl
@[simp] theorem State.setKey_ctr (s : State) (v : Word) : (s.setKey v).ctr = s.ctr := rfl
@[simp] theorem State.setKey_key (s : State) (v : Word) : (s.setKey v).key = v := rfl
@[simp] theorem State.setKey_accerr (s : State) (v : Word) : (s.setKey v).accerr = s.accerr := rfl
@[simp] theorem State.setKey_inReset (s : State) (v : Word) : (s.setKey v).inReset = s.inReset := rfl
@[simp] theorem State.setKey_inputs (s : State) (v : Word) : (s.setKey v).inputs = s.inputs := rfl
@[simp] theorem State.setKey_resp (s : State) (v : Word) : (s.setKey v).resp = s.resp := rfl
@[simp] theorem State.setKey_freeCount (s : State) (v : Word) : (s.setKey v).freeCount = s.freeCount := rfl

@[simp] theorem State.setAccErr_mixIn (s : State) (b : Bool) : (s.setAccErr b).mixIn = s.mixIn := rfl
@[simp] theorem State.setAccErr_hashSeed (s : State) (b : Bool) : (s.setAccErr b).hashSeed = s.hashSeed := rfl
@[simp] theorem State.setAccErr_hashLen (s : State) (b : Bool) : (s.setAccErr b).hashLen = s.hashLen := rfl
@[simp] theorem State.setAccErr_acc (s : State) (b : Bool) : (s.setAccErr b).acc = s.acc := rfl
@[simp] theorem State.setAccErr_tbuf (s : State) (b : Bool) : (s.setAccErr b).tbuf = s.tbuf := rfl
@[simp] theorem State.setAccErr_tcnt (s : State) (b : Bool) : (s.setAccErr b).tcnt = s.tcnt := rfl
@[simp] theorem State.setAccErr_count (s : State) (b : Bool) : (s.setAccErr b).count = s.count := rfl
@[simp] theorem State.setAccErr_ctr (s : State) (b : Bool) : (s.setAccErr b).ctr = s.ctr := rfl
@[simp] theorem State.setAccErr_key (s : State) (b : Bool) : (s.setAccErr b).key = s.key := rfl
@[simp] theorem State.setAccErr_accerr (s : State) (b : Bool) : (s.setAccErr b).accerr = b := rfl
@[simp] theorem State.setAccErr_inReset (s : State) (b : Bool) : (s.setAccErr b).inReset = s.inReset := rfl
@[simp] theorem State.setAccErr_inputs (s : State) (b : Bool) : (s.setAccErr b).inputs = s.inputs := rfl
@[simp] theorem State.setAccErr_resp (s : State) (b : Bool) : (s.setAccErr b).resp = s.resp := rfl
@[simp] theorem State.setAccErr_freeCount (s : State) (b : Bool) : (s.setAccErr b).freeCount = s.freeCount := rfl

@[simp] theorem State.respond_mixIn (s : State) (r : Response) : (s.respond r).mixIn = s.mixIn := rfl
@[simp] theorem State.respond_hashSeed (s : State) (r : Response) : (s.respond r).hashSeed = s.hashSeed := rfl
@[simp] theorem State.respond_hashLen (s : State) (r : Response) : (s.respond r).hashLen = s.hashLen := rfl
@[simp] theorem State.respond_acc (s : State) (r : Response) : (s.respond r).acc = s.acc := rfl
@[simp] theorem State.respond_tbuf (s : State) (r : Response) : (s.respond r).tbuf = s.tbuf := rfl
@[simp] theorem State.respond_tcnt (s : State) (r : Response) : (s.respond r).tcnt = s.tcnt := rfl
@[simp] theorem State.respond_count (s : State) (r : Response) : (s.respond r).count = s.count := rfl
@[simp] theorem State.respond_ctr (s : State) (r : Response) : (s.respond r).ctr = s.ctr := rfl
@[simp] theorem State.respond_key (s : State) (r : Response) : (s.respond r).key = s.key := rfl
@[simp] theorem State.respond_accerr (s : State) (r : Response) : (s.respond r).accerr = s.accerr := rfl
@[simp] theorem State.respond_inReset (s : State) (r : Response) : (s.respond r).inReset = s.inReset := rfl
@[simp] theorem State.respond_inputs (s : State) (r : Response) : (s.respond r).inputs = s.inputs := rfl
@[simp] theorem State.respond_resp (s : State) (r : Response) : (s.respond r).resp = r := rfl
@[simp] theorem State.respond_freeCount (s : State) (r : Response) : (s.respond r).freeCount = s.freeCount := rfl

@[simp] theorem State.takeInput_mixIn (s : State) (l : List Input) : (s.takeInput l).mixIn = s.mixIn := rfl
@[simp] theorem State.takeInput_hashSeed (s : State) (l : List Input) : (s.takeInput l).hashSeed = s.hashSeed := rfl
@[simp] theorem State.takeInput_hashLen (s : State) (l : List Input) : (s.takeInput l).hashLen = s.hashLen := rfl
@[simp] theorem State.takeInput_acc (s : State) (l : List Input) : (s.takeInput l).acc = s.acc := rfl
@[simp] theorem State.takeInput_tbuf (s : State) (l : List Input) : (s.takeInput l).tbuf = s.tbuf := rfl
@[simp] theorem State.takeInput_tcnt (s : State) (l : List Input) : (s.takeInput l).tcnt = s.tcnt := rfl
@[simp] theorem State.takeInput_count (s : State) (l : List Input) : (s.takeInput l).count = s.count := rfl
@[simp] theorem State.takeInput_ctr (s : State) (l : List Input) : (s.takeInput l).ctr = s.ctr := rfl
@[simp] theorem State.takeInput_key (s : State) (l : List Input) : (s.takeInput l).key = s.key := rfl
@[simp] theorem State.takeInput_accerr (s : State) (l : List Input) : (s.takeInput l).accerr = s.accerr := rfl
@[simp] theorem State.takeInput_inReset (s : State) (l : List Input) : (s.takeInput l).inReset = s.inReset := rfl
@[simp] theorem State.takeInput_inputs (s : State) (l : List Input) : (s.takeInput l).inputs = l := rfl
@[simp] theorem State.takeInput_resp (s : State) (l : List Input) : (s.takeInput l).resp = s.resp := rfl
@[simp] theorem State.takeInput_freeCount (s : State) (l : List Input) : (s.takeInput l).freeCount = s.freeCount := rfl

@[simp] theorem State.accept_mixIn (s : State) : s.accept.mixIn = s.mixIn := rfl
@[simp] theorem State.accept_hashSeed (s : State) : s.accept.hashSeed = s.hashSeed := rfl
@[simp] theorem State.accept_hashLen (s : State) : s.accept.hashLen = s.hashLen := rfl
@[simp] theorem State.accept_acc (s : State) : s.accept.acc = s.acc := rfl
@[simp] theorem State.accept_tbuf (s : State) : s.accept.tbuf = s.tbuf := rfl
@[simp] theorem State.accept_tcnt (s : State) : s.accept.tcnt = s.tcnt := rfl
@[simp] theorem State.accept_count (s : State) : s.accept.count = s.count := rfl
@[simp] theorem State.accept_ctr (s : State) : s.accept.ctr = s.ctr := rfl
@[simp] theorem State.accept_key (s : State) : s.accept.key = s.key := rfl
@[simp] theorem State.accept_accerr (s : State) : s.accept.accerr = s.accerr := rfl
@[simp] theorem State.accept_inReset (s : State) : s.accept.inReset = s.inReset := rfl
@[simp] theorem State.accept_inputs (s : State) : s.accept.inputs = s.inputs := rfl
@[simp] theorem State.accept_resp (s : State) : s.accept.resp = .ack := rfl
@[simp] theorem State.accept_freeCount (s : State) : s.accept.freeCount = s.freeCount := rfl

@[simp] theorem State.answer64_mixIn (s : State) (v : Word) : (s.answer64 v).mixIn = s.mixIn := rfl
@[simp] theorem State.answer64_hashSeed (s : State) (v : Word) : (s.answer64 v).hashSeed = s.hashSeed := rfl
@[simp] theorem State.answer64_hashLen (s : State) (v : Word) : (s.answer64 v).hashLen = s.hashLen := rfl
@[simp] theorem State.answer64_acc (s : State) (v : Word) : (s.answer64 v).acc = s.acc := rfl
@[simp] theorem State.answer64_tbuf (s : State) (v : Word) : (s.answer64 v).tbuf = s.tbuf := rfl
@[simp] theorem State.answer64_tcnt (s : State) (v : Word) : (s.answer64 v).tcnt = s.tcnt := rfl
@[simp] theorem State.answer64_count (s : State) (v : Word) : (s.answer64 v).count = s.count := rfl
@[simp] theorem State.answer64_ctr (s : State) (v : Word) : (s.answer64 v).ctr = s.ctr := rfl
@[simp] theorem State.answer64_key (s : State) (v : Word) : (s.answer64 v).key = s.key := rfl
@[simp] theorem State.answer64_accerr (s : State) (v : Word) : (s.answer64 v).accerr = s.accerr := rfl
@[simp] theorem State.answer64_inReset (s : State) (v : Word) : (s.answer64 v).inReset = s.inReset := rfl
@[simp] theorem State.answer64_inputs (s : State) (v : Word) : (s.answer64 v).inputs = s.inputs := rfl
@[simp] theorem State.answer64_resp (s : State) (v : Word) : (s.answer64 v).resp = .data v := rfl
@[simp] theorem State.answer64_freeCount (s : State) (v : Word) : (s.answer64 v).freeCount = s.freeCount := rfl

@[simp] theorem State.answerNarrow_mixIn (s : State) (w : Nat) (v : BitVec w) :
    (s.answerNarrow v).mixIn = s.mixIn := rfl
@[simp] theorem State.answerNarrow_hashSeed (s : State) (w : Nat) (v : BitVec w) :
    (s.answerNarrow v).hashSeed = s.hashSeed := rfl
@[simp] theorem State.answerNarrow_hashLen (s : State) (w : Nat) (v : BitVec w) :
    (s.answerNarrow v).hashLen = s.hashLen := rfl
@[simp] theorem State.answerNarrow_acc (s : State) (w : Nat) (v : BitVec w) :
    (s.answerNarrow v).acc = s.acc := rfl
@[simp] theorem State.answerNarrow_tbuf (s : State) (w : Nat) (v : BitVec w) :
    (s.answerNarrow v).tbuf = s.tbuf := rfl
@[simp] theorem State.answerNarrow_tcnt (s : State) (w : Nat) (v : BitVec w) :
    (s.answerNarrow v).tcnt = s.tcnt := rfl
@[simp] theorem State.answerNarrow_count (s : State) (w : Nat) (v : BitVec w) :
    (s.answerNarrow v).count = s.count := rfl
@[simp] theorem State.answerNarrow_ctr (s : State) (w : Nat) (v : BitVec w) :
    (s.answerNarrow v).ctr = s.ctr := rfl
@[simp] theorem State.answerNarrow_key (s : State) (w : Nat) (v : BitVec w) :
    (s.answerNarrow v).key = s.key := rfl
@[simp] theorem State.answerNarrow_accerr (s : State) (w : Nat) (v : BitVec w) :
    (s.answerNarrow v).accerr = s.accerr := rfl
@[simp] theorem State.answerNarrow_inReset (s : State) (w : Nat) (v : BitVec w) :
    (s.answerNarrow v).inReset = s.inReset := rfl
@[simp] theorem State.answerNarrow_inputs (s : State) (w : Nat) (v : BitVec w) :
    (s.answerNarrow v).inputs = s.inputs := rfl
@[simp] theorem State.answerNarrow_resp (s : State) (w : Nat) (v : BitVec w) :
    (s.answerNarrow v).resp = .data (zext64 v) := rfl
@[simp] theorem State.answerNarrow_freeCount (s : State) (w : Nat) (v : BitVec w) :
    (s.answerNarrow v).freeCount = s.freeCount := rfl

@[simp] theorem State.toResetValues_mixIn (s : State) : s.toResetValues.mixIn = State.reset.mixIn := rfl
@[simp] theorem State.toResetValues_hashSeed (s : State) : s.toResetValues.hashSeed = State.reset.hashSeed := rfl
@[simp] theorem State.toResetValues_hashLen (s : State) : s.toResetValues.hashLen = State.reset.hashLen := rfl
@[simp] theorem State.toResetValues_acc (s : State) : s.toResetValues.acc = State.reset.acc := rfl
@[simp] theorem State.toResetValues_tbuf (s : State) : s.toResetValues.tbuf = State.reset.tbuf := rfl
@[simp] theorem State.toResetValues_tcnt (s : State) : s.toResetValues.tcnt = State.reset.tcnt := rfl
@[simp] theorem State.toResetValues_count (s : State) : s.toResetValues.count = State.reset.count := rfl
@[simp] theorem State.toResetValues_ctr (s : State) : s.toResetValues.ctr = State.reset.ctr := rfl
@[simp] theorem State.toResetValues_key (s : State) : s.toResetValues.key = State.reset.key := rfl
@[simp] theorem State.toResetValues_accerr (s : State) : s.toResetValues.accerr = State.reset.accerr := rfl
@[simp] theorem State.toResetValues_inReset (s : State) : s.toResetValues.inReset = s.inReset := rfl
@[simp] theorem State.toResetValues_inputs (s : State) : s.toResetValues.inputs = s.inputs := rfl
@[simp] theorem State.toResetValues_resp (s : State) : s.toResetValues.resp = s.resp := rfl
@[simp] theorem State.toResetValues_freeCount (s : State) : s.toResetValues.freeCount = s.freeCount := rfl

end Sys2Proof.Machine
end

