-- ==== Sys2Proof/Laws/Ops.lean ====
section
/-! SUPPORT. For each shared operation of Machine/Ops.lean, Operands.lean and Flags.lean, one lemma that says everything
it does. -/

namespace Sys2Proof.Machine

/-! ### Identification and status -/

theorem State.writeStatus_eq (s : State) (v : Word) :
    s.writeStatus v = { s with accerr := if v.getLsbD 8 then false else s.accerr } := by
  unfold State.writeStatus
  split <;> rfl

theorem State.illegalAccess_eq (s : State) (w : Bool) :
    s.illegalAccess w = { s with accerr := true, resp := if w then .ack else .data 0 } := rfl

/-! ### Hasher -/

theorem State.startHash_eq (P : Params) (s : State) :
    s.startHash P = { s with acc := P.hashInit s.hashSeed s.hashLen, tbuf := 0, tcnt := 0, count := 0 } := rfl

/-- A byte that does not complete a chunk waits in the tail. -/
theorem State.appendByte_waits (P : Params) (s : State) (b : Byte) (h : s.tcnt.toNat < 7) :
    s.appendByte P b =
      { s with tbuf := putByte s.tbuf s.tcnt.toNat b, tcnt := s.tcnt + 1, count := s.count + 1 } := by
  simp [State.appendByte, h, State.setTail, State.setCount]

/-- The eighth byte completes a chunk. -/
theorem State.appendByte_completes (P : Params) (s : State) (b : Byte) (h : ¬ s.tcnt.toNat < 7) :
    s.appendByte P b =
      { s with acc := mix P (s.acc ^^^ chunkWord s.tbuf b), tbuf := 0, tcnt := 0, count := s.count + 1 } := by
  simp [State.appendByte, h, State.setTail, State.setCount, State.setAcc]

theorem chunkWord_getLsbD (t : BitVec 56) (b : Byte) (j : Nat) (hj : j < 64) :
    (chunkWord t b).getLsbD j = if j < 56 then t.getLsbD j else b.getLsbD (j - 56) := by
  unfold chunkWord
  rw [BitVec.getLsbD_or, zext64_getLsbD, BitVec.getLsbD_shiftLeft, zext64_getLsbD]
  by_cases h : j < 56
  · simp [hj, h]
  · rw [BitVec.getLsbD_of_ge t j (by omega)]
    simp [hj, h, show j - 56 < 64 by omega]

/-- Appending touches the accumulator, the tail and the count, and nothing else. -/
structure AppendFrame (s t : State) : Prop where
  mixIn : t.mixIn = s.mixIn
  hashSeed : t.hashSeed = s.hashSeed
  hashLen : t.hashLen = s.hashLen
  ctr : t.ctr = s.ctr
  key : t.key = s.key
  accerr : t.accerr = s.accerr
  inReset : t.inReset = s.inReset
  inputs : t.inputs = s.inputs
  resp : t.resp = s.resp
  freeCount : t.freeCount = s.freeCount

theorem State.appendByte_frame (P : Params) (s : State) (b : Byte) : AppendFrame s (s.appendByte P b) := by
  by_cases h : s.tcnt.toNat < 7
  · rw [State.appendByte_waits P s b h]; constructor <;> rfl
  · rw [State.appendByte_completes P s b h]; constructor <;> rfl

theorem State.appendByte_count (P : Params) (s : State) (b : Byte) : (s.appendByte P b).count = s.count + 1 := by
  by_cases h : s.tcnt.toNat < 7
  · rw [State.appendByte_waits P s b h]
  · rw [State.appendByte_completes P s b h]

@[simp] theorem State.appendBytes_nil (P : Params) (s : State) : s.appendBytes P [] = s := rfl

@[simp] theorem State.appendBytes_cons (P : Params) (s : State) (b : Byte) (bs : List Byte) :
    s.appendBytes P (b :: bs) = (s.appendByte P b).appendBytes P bs := rfl

/-- Appending one byte list and then another is appending their concatenation. -/
theorem State.appendBytes_append (P : Params) (s : State) (as bs : List Byte) :
    s.appendBytes P (as ++ bs) = (s.appendBytes P as).appendBytes P bs := by
  simp [State.appendBytes, List.foldl_append]

theorem State.appendBytes_frame (P : Params) (bs : List Byte) (s : State) : AppendFrame s (s.appendBytes P bs) := by
  induction bs generalizing s with
  | nil => constructor <;> rfl
  | cons b bs ih =>
    have h1 := State.appendByte_frame P s b
    have h2 := ih (s.appendByte P b)
    constructor
    · exact h2.mixIn.trans h1.mixIn
    · exact h2.hashSeed.trans h1.hashSeed
    · exact h2.hashLen.trans h1.hashLen
    · exact h2.ctr.trans h1.ctr
    · exact h2.key.trans h1.key
    · exact h2.accerr.trans h1.accerr
    · exact h2.inReset.trans h1.inReset
    · exact h2.inputs.trans h1.inputs
    · exact h2.resp.trans h1.resp
    · exact h2.freeCount.trans h1.freeCount

theorem State.appendBytes_count (P : Params) (bs : List Byte) (s : State) :
    (s.appendBytes P bs).count = s.count + BitVec.ofNat 64 bs.length := by
  induction bs generalizing s with
  | nil => simp
  | cons b bs ih =>
    rw [State.appendBytes_cons, ih, State.appendByte_count, List.length_cons, BitVec.ofNat_add]
    ac_rfl

/-- Bytes that complete no chunk wait in the tail, one above the other. -/
theorem State.appendBytes_waits (P : Params) (bs : List Byte) (s : State) (h : s.tcnt.toNat + bs.length ≤ 7) :
    ∃ tb : BitVec 56,
      s.appendBytes P bs =
        { s with
          tbuf := tb
          tcnt := s.tcnt + BitVec.ofNat 3 bs.length
          count := s.count + BitVec.ofNat 64 bs.length } ∧
      ∀ j < 56, tb.getLsbD j =
        if j < 8 * s.tcnt.toNat ∨ 8 * (s.tcnt.toNat + bs.length) ≤ j then s.tbuf.getLsbD j
        else ((bs[j / 8 - s.tcnt.toNat]?).getD 0).getLsbD (j % 8) := by
  induction bs generalizing s with
  | nil => refine ⟨s.tbuf, by simp, fun j hj => ?_⟩; simp; omega
  | cons b bs ih =>
    simp only [List.length_cons] at h
    rw [State.appendBytes_cons, State.appendByte_waits P s b (by omega)]
    have ht : (s.tcnt + 1).toNat = s.tcnt.toNat + 1 := by rw [BitVec.toNat_add]; simp; omega
    obtain ⟨tb, h1, h2⟩ := ih { s with tbuf := putByte s.tbuf s.tcnt.toNat b, tcnt := s.tcnt + 1, count := s.count + 1 } (by show (s.tcnt + 1).toNat + _ ≤ 7; omega)
    refine ⟨tb, ?_, fun j hj => ?_⟩
    · rw [h1]
      simp only [List.length_cons, BitVec.ofNat_add]
      congr 1 <;> (rw [BitVec.add_assoc]; congr 1; rw [BitVec.add_comm]; rfl)
    · rw [h2 j hj]
      simp only [ht, List.length_cons]
      rw [putByte_getLsbD _ _ _ _ hj]
      by_cases c1 : j < 8 * s.tcnt.toNat
      · simp [c1, show j < 8 * (s.tcnt.toNat + 1) by omega, show ¬ 8 * s.tcnt.toNat ≤ j by omega]
      · by_cases c2 : j < 8 * s.tcnt.toNat + 8
        · simp [c1, show j < 8 * (s.tcnt.toNat + 1) by omega, show 8 * s.tcnt.toNat ≤ j by omega, c2, show ¬ 8 * (s.tcnt.toNat + (bs.length + 1)) ≤ j by omega, show j / 8 - s.tcnt.toNat = 0 by omega, show j - 8 * s.tcnt.toNat = j % 8 by omega]
        · by_cases c3 : 8 * (s.tcnt.toNat + (bs.length + 1)) ≤ j
          · rw [if_pos (by omega), if_neg (by omega), if_pos (by omega)]
          · rw [if_neg (by omega), if_neg (by omega), show j / 8 - s.tcnt.toNat = (j / 8 - (s.tcnt.toNat + 1)) + 1 by omega]
            simp

/-- A clean tail, bit by bit: no bit of `TBUF` at or above `8 * TCNT` is set (10_state.md R28). -/
theorem State.tailClean_iff (s : State) :
    s.tailClean = true ↔ ∀ j, 8 * s.tcnt.toNat ≤ j → s.tbuf.getLsbD j = false := by
  unfold State.tailClean
  rw [beq_iff_eq]
  constructor
  · intro h j hj
    have := congrArg (fun x => x.getLsbD (j - 8 * s.tcnt.toNat)) h
    simpa [BitVec.getLsbD_ushiftRight, Nat.add_sub_cancel' hj] using this
  · intro h
    ext j hj
    simp only [← BitVec.getLsbD_eq_getElem]
    rw [BitVec.getLsbD_ushiftRight, h _ (by omega)]
    simp

/-- The write of `HASH_TAIL`: the count of bits 58:56 and the bytes below it. -/
theorem State.writeTail_eq (s : State) (v : Word) :
    s.writeTail v =
      { s with tcnt := tailCountOf v, tbuf := keepTail (tailCountOf v).toNat (tailBytesOf v) } := rfl

/-! ### RNG -/

theorem State.seedRng_eq (P : Params) (s : State) (v : Word) :
    s.seedRng P v = { s with ctr := 0, key := v ^^^ P.rngSeedXor } := rfl

theorem State.advance_eq (P : Params) (s : State) : s.advance P = { s with ctr := s.ctr + P.rngInc } := rfl

theorem State.drawn_eq (P : Params) (s : State) : s.drawn P = mix P (s.ctr + P.rngInc + s.key) := rfl

/-- Draws advance the counter by the increment each time and leave the rest alone. -/
theorem State.advance_iterate (P : Params) (k : Nat) (s : State) :
    (State.advance P)^[k] s = { s with ctr := s.ctr + BitVec.ofNat 64 k * P.rngInc } := by
  induction k generalizing s with
  | zero => simp
  | succ k ih =>
    rw [Function.iterate_succ_apply, ih, State.advance_eq]
    have : s.ctr + P.rngInc + BitVec.ofNat 64 k * P.rngInc = s.ctr + BitVec.ofNat 64 (k + 1) * P.rngInc := by
      rw [BitVec.ofNat_add, BitVec.add_mul, BitVec.add_assoc]
      congr 1
      rw [BitVec.add_comm]
      simp
    simp [this]

/-! ### What still arrives is not touched, and touches nothing -/

theorem State.takeInput_eq (s : State) (l : List Input) : s.takeInput l = { s with inputs := l } := rfl

@[simp] theorem State.takeInput_takeInput (s : State) (k l : List Input) :
    (s.takeInput k).takeInput l = s.takeInput l := rfl

theorem State.takeInput_self (s : State) : s.takeInput s.inputs = s := rfl

theorem State.appendByte_takeInput (P : Params) (s : State) (b : Byte) (l : List Input) :
    (s.takeInput l).appendByte P b = (s.appendByte P b).takeInput l := by
  unfold State.appendByte
  simp only [State.takeInput_tcnt]
  by_cases h : s.tcnt.toNat < 7
  · simp only [h, if_true]; rfl
  · simp only [h, if_false]; rfl

theorem State.appendBytes_takeInput (P : Params) (bs : List Byte) (s : State) (l : List Input) :
    (s.takeInput l).appendBytes P bs = (s.appendBytes P bs).takeInput l := by
  induction bs generalizing s with
  | nil => rfl
  | cons b bs ih => rw [State.appendBytes_cons, State.appendBytes_cons, State.appendByte_takeInput, ih]

/-! ### Reset input -/

/-- Asserting reset: the elements hold their reset values, and only the answer and the count of free answers depend on
the transaction in progress. -/
theorem State.enterReset_cases (s : State) (cut : Option Txn) :
    (∃ r n, s.enterReset cut = { s.toResetValues with inReset := true, resp := r, freeCount := n }) ∧
    (s.inReset = true ∨ cut = none → s.enterReset cut = { s.toResetValues with inReset := true, resp := .idle }) := by
  unfold State.enterReset
  refine ⟨?_, ?_⟩
  · split
    · exact ⟨_, _, rfl⟩
    · exact ⟨.idle, s.freeCount, rfl⟩
  · rintro (h | h) <;> simp [h]

/-- Releasing an asserted reset: the elements hold their reset values. -/
theorem State.leaveReset_asserted (s : State) (h : s.inReset = true) :
    s.leaveReset = { s.toResetValues with inReset := false, resp := .idle } := by
  simp only [State.leaveReset, h]

/-- Releasing a reset that is not asserted: only the answer changes. -/
theorem State.leaveReset_released (s : State) (h : s.inReset = false) : s.leaveReset = s.respond .idle := by
  simp only [State.leaveReset, h]

theorem State.leaveReset_takeInput (s : State) (l : List Input) :
    (s.takeInput l).leaveReset = s.leaveReset.takeInput l := by
  cases h : s.inReset
  · rw [State.leaveReset_released _ h, State.leaveReset_released (s.takeInput l) h]; rfl
  · rw [State.leaveReset_asserted _ h, State.leaveReset_asserted (s.takeInput l) h]; rfl

theorem State.enterReset_takeInput (s : State) (cut : Option Txn) (l : List Input) :
    (s.takeInput l).enterReset cut = (s.enterReset cut).takeInput l := by
  unfold State.enterReset
  simp only [State.takeInput_inReset]
  cases s.inReset <;> cases cut <;> rfl

theorem State.notAccepted_eq (s : State) : s.notAccepted = { s with resp := .idle } := rfl

theorem State.toResetValues_atResetValues (s : State) : s.toResetValues.AtResetValues := by
  constructor <;> rfl

end Sys2Proof.Machine
end

