-- ==== Sys2Proof/Laws/Exec.lean ====
section
/-! SUPPORT. What each instruction does, over the shared operations: one equation per constructor; and what no instruction
touches: the reset input, what still arrives, and the count of free answers. -/

namespace Sys2Proof.Machine

theorem exec_rdId (s : State) :
    exec .rdId s = .next (s.answer64 (idWord Config.version)) := rfl

theorem exec_rdStatus (s : State) :
    exec .rdStatus s = .next (s.answer64 s.statusWord) := rfl

theorem exec_wrStatus (v : Word) (s : State) :
    exec (.wrStatus v) s = .next (s.writeStatus v).accept := rfl

theorem exec_wrMixIn (v : Word) (s : State) :
    exec (.wrMixIn v) s = .next (s.setMixIn v).accept := rfl

theorem exec_rdMixIn (s : State) :
    exec .rdMixIn s = .next (s.answer64 s.mixIn) := rfl

theorem exec_rdMixOut (s : State) :
    exec .rdMixOut s = .next (s.answer64 (mix Config.inst s.mixIn)) := rfl

theorem exec_wrHashSeed (v : Word) (s : State) :
    exec (.wrHashSeed v) s = .next (s.setHashSeed v).accept := rfl

theorem exec_rdHashSeed (s : State) :
    exec .rdHashSeed s = .next (s.answer64 s.hashSeed) := rfl

theorem exec_wrHashLen (v : Word) (s : State) :
    exec (.wrHashLen v) s = .next (s.setHashLen v).accept := rfl

theorem exec_rdHashLen (s : State) :
    exec .rdHashLen s = .next (s.answer64 s.hashLen) := rfl

theorem exec_wrHashCtrl (v : Word) (s : State) :
    exec (.wrHashCtrl v) s = .next (if v.getLsbD 0 then s.startHash Config.inst else s).accept := rfl

theorem exec_wrHashData1 (v : Word) (s : State) :
    exec (.wrHashData1 v) s = .next (s.appendBytes Config.inst (lowBytes 1 v)).accept := rfl

theorem exec_wrHashData2 (v : Word) (s : State) :
    exec (.wrHashData2 v) s = .next (s.appendBytes Config.inst (lowBytes 2 v)).accept := rfl

theorem exec_wrHashData4 (v : Word) (s : State) :
    exec (.wrHashData4 v) s = .next (s.appendBytes Config.inst (lowBytes 4 v)).accept := rfl

theorem exec_wrHashData8 (v : Word) (s : State) :
    exec (.wrHashData8 v) s = .next (s.appendBytes Config.inst (lowBytes 8 v)).accept := rfl

theorem exec_wrHashAcc (v : Word) (s : State) :
    exec (.wrHashAcc v) s = .next (s.setAcc v).accept := rfl

theorem exec_rdHashAcc (s : State) :
    exec .rdHashAcc s = .next (s.answer64 s.acc) := rfl

theorem exec_wrHashTail (v : Word) (s : State) :
    exec (.wrHashTail v) s = .next (s.writeTail v).accept := rfl

theorem exec_rdHashTail (s : State) :
    exec .rdHashTail s = .next (s.answer64 s.tailWord) := rfl

theorem exec_wrHashCount (v : Word) (s : State) :
    exec (.wrHashCount v) s = .next (s.setCount v).accept := rfl

theorem exec_rdHashCount (s : State) :
    exec .rdHashCount s = .next (s.answer64 s.count) := rfl

theorem exec_rdHashDigest (s : State) :
    exec .rdHashDigest s = .next (s.answer64 (s.digest Config.inst)) := rfl

theorem exec_wrRngSeed (v : Word) (s : State) :
    exec (.wrRngSeed v) s = .next (s.seedRng Config.inst v).accept := rfl

theorem exec_wrRngCtr (v : Word) (s : State) :
    exec (.wrRngCtr v) s = .next (s.setCtr v).accept := rfl

theorem exec_rdRngCtr (s : State) :
    exec .rdRngCtr s = .next (s.answer64 s.ctr) := rfl

theorem exec_wrRngKey (v : Word) (s : State) :
    exec (.wrRngKey v) s = .next (s.setKey v).accept := rfl

theorem exec_rdRngKey (s : State) :
    exec .rdRngKey s = .next (s.answer64 s.key) := rfl

theorem exec_rdRngNext64 (s : State) :
    exec .rdRngNext64 s = .next ((s.advance Config.inst).answer64 (s.drawn Config.inst)) := rfl

theorem exec_rdRngNext32 (s : State) :
    exec .rdRngNext32 s = .next ((s.advance Config.inst).answer64 (zext64 (upper32 (s.drawn Config.inst)))) := rfl

theorem exec_rdRngNext32W (s : State) :
    exec .rdRngNext32W s = .next ((s.advance Config.inst).answerNarrow (upper32 (s.drawn Config.inst))) := rfl

theorem exec_rdRngNextF64 (s : State) :
    exec .rdRngNextF64 s = .next ((s.advance Config.inst).answer64 (f64bits (s.drawn Config.inst >>> 11))) := rfl

theorem exec_illegal (d : Desc) (v : Word) (s : State) :
    exec (.illegal d v) s = .next (s.illegalAccess (isWrite d)) := rfl

/-- What no instruction changes. -/
structure InterfaceKept (s t : State) : Prop where
  inReset : t.inReset = s.inReset
  inputs : t.inputs = s.inputs
  freeCount : t.freeCount = s.freeCount

theorem AppendFrame.accept_keeps (s t : State) (h : AppendFrame s t) : InterfaceKept s t.accept :=
  ⟨h.inReset, h.inputs, h.freeCount⟩

/-- No instruction touches the reset input, what still arrives, or the count of free answers. -/
theorem exec_keeps_interface (i : Instr) (s t : State) (h : exec i s = .next t) : InterfaceKept s t := by
  cases i
  case wrStatus v =>
    rw [exec_wrStatus, State.writeStatus_eq] at h; injection h with h; subst h; constructor <;> rfl
  case wrHashCtrl v =>
    rw [exec_wrHashCtrl] at h; injection h with h; subst h; split <;> constructor <;> rfl
  case wrHashData1 v =>
    rw [exec_wrHashData1] at h; injection h with h; subst h
    exact (State.appendBytes_frame Config.inst (lowBytes 1 v) s).accept_keeps
  case wrHashData2 v =>
    rw [exec_wrHashData2] at h; injection h with h; subst h
    exact (State.appendBytes_frame Config.inst (lowBytes 2 v) s).accept_keeps
  case wrHashData4 v =>
    rw [exec_wrHashData4] at h; injection h with h; subst h
    exact (State.appendBytes_frame Config.inst (lowBytes 4 v) s).accept_keeps
  case wrHashData8 v =>
    rw [exec_wrHashData8] at h; injection h with h; subst h
    exact (State.appendBytes_frame Config.inst (lowBytes 8 v) s).accept_keeps
  all_goals
    injection h with h
    subst h
    constructor <;> rfl

/-- What still arrives has no influence on an instruction. -/
theorem exec_takeInput (i : Instr) (s t : State) (l : List Input) (h : exec i s = .next t) :
    exec i (s.takeInput l) = .next (t.takeInput l) := by
  cases i
  case wrStatus v =>
    rw [exec_wrStatus, State.writeStatus_eq] at h ⊢; injection h with h; subst h; rfl
  case wrHashCtrl v =>
    rw [exec_wrHashCtrl] at h ⊢; injection h with h; subst h; split <;> rfl
  case wrHashData1 v =>
    rw [exec_wrHashData1] at h ⊢; injection h with h; subst h; rw [State.appendBytes_takeInput]; rfl
  case wrHashData2 v =>
    rw [exec_wrHashData2] at h ⊢; injection h with h; subst h; rw [State.appendBytes_takeInput]; rfl
  case wrHashData4 v =>
    rw [exec_wrHashData4] at h ⊢; injection h with h; subst h; rw [State.appendBytes_takeInput]; rfl
  case wrHashData8 v =>
    rw [exec_wrHashData8] at h ⊢; injection h with h; subst h; rw [State.appendBytes_takeInput]; rfl
  all_goals
    injection h with h
    subst h
    rfl

end Sys2Proof.Machine
end

