-- ==== Sys2Proof/Laws/Mix.lean ====
section
/-! SUPPORT. What the mixer and the digest function do, step by step. -/

namespace Sys2Proof.Machine

@[simp] theorem mixSteps_nil (x : Word) : mixSteps [] x = x := rfl

@[simp] theorem mixSteps_cons (st : MixStep) (l : List MixStep) (x : Word) :
    mixSteps (st :: l) x = mixSteps l (mixStep st x) := rfl

theorem mixSteps_append (k l : List MixStep) (x : Word) : mixSteps (k ++ l) x = mixSteps l (mixSteps k x) := by
  simp [mixSteps, List.foldl_append]

theorem mix_eq (P : Params) (x : Word) : mix P x = mixSteps P.mixProg.rest (mixStep P.mixProg.first x) := rfl

/-- A rotation step does not tell a word from its complement. -/
theorem mixStep_xrr_not (r : Nat) (x : Word) : mixStep (.xrr r) (~~~x) = mixStep (.xrr r) x := by
  ext i hi
  simp only [← BitVec.getLsbD_eq_getElem]
  show ((~~~x) ^^^ rotr64 (~~~x) r).getLsbD i = (x ^^^ rotr64 x r).getLsbD i
  rw [BitVec.getLsbD_xor, BitVec.getLsbD_xor, rotr64_getLsbD _ _ _ hi, rotr64_getLsbD _ _ _ hi,
    BitVec.getLsbD_not, BitVec.getLsbD_not, decide_eq_true hi, decide_eq_true (Nat.mod_lt _ (by decide))]
  simp

/-- The chunks of a list that is longer at its end, up to the chunks the shorter one has, are its chunks. -/
theorem hashChunk_append (P : Params) (d e : List Byte) (acc : Word) (i : Nat) (h : 8 * i + 8 ≤ d.length) :
    hashChunk P (d ++ e) acc i = hashChunk P d acc i := by
  unfold hashChunk
  rw [List.drop_append_of_le_length (by omega), List.take_append_of_le_length (by simp; omega)]

end Sys2Proof.Machine
end

