-- ==== Sys2Proof/Laws/PerInstr.lean ====
section
/-! SUPPORT. The per-instruction family: an instruction's encoding lies among the legal descriptors of the register map
exactly when the instruction is no ILLEGAL (spec/20_memory.md R49; spec/30_encoding.md R60). -/

namespace Sys2Proof.Laws

open Machine

/-- The encoding of a well-formed instruction is a legal access of the window unless the instruction is ILLEGAL. -/
def EncodesAsTable.Statement (i : Instr) : Prop :=
  i.wellFormed = true → legalDescriptor (encode i).d = !isIllegal i

theorem EncodesAsTable.rdId : EncodesAsTable.Statement .rdId :=
  fun _ => rfl

theorem EncodesAsTable.rdStatus : EncodesAsTable.Statement .rdStatus :=
  fun _ => rfl

theorem EncodesAsTable.wrStatus (v : Word) : EncodesAsTable.Statement (.wrStatus v) :=
  fun _ => by simp only [encode, busWrite]; rfl

theorem EncodesAsTable.wrMixIn (v : Word) : EncodesAsTable.Statement (.wrMixIn v) :=
  fun _ => by simp only [encode, busWrite]; rfl

theorem EncodesAsTable.rdMixIn : EncodesAsTable.Statement .rdMixIn :=
  fun _ => rfl

theorem EncodesAsTable.rdMixOut : EncodesAsTable.Statement .rdMixOut :=
  fun _ => rfl

theorem EncodesAsTable.wrHashSeed (v : Word) : EncodesAsTable.Statement (.wrHashSeed v) :=
  fun _ => by simp only [encode, busWrite]; rfl

theorem EncodesAsTable.rdHashSeed : EncodesAsTable.Statement .rdHashSeed :=
  fun _ => rfl

theorem EncodesAsTable.wrHashLen (v : Word) : EncodesAsTable.Statement (.wrHashLen v) :=
  fun _ => by simp only [encode, busWrite]; rfl

theorem EncodesAsTable.rdHashLen : EncodesAsTable.Statement .rdHashLen :=
  fun _ => rfl

theorem EncodesAsTable.wrHashCtrl (v : Word) : EncodesAsTable.Statement (.wrHashCtrl v) :=
  fun _ => by simp only [encode, busWrite]; rfl

theorem EncodesAsTable.wrHashData1 (v : Word) : EncodesAsTable.Statement (.wrHashData1 v) :=
  fun _ => by simp only [encode, busWrite]; rfl

theorem EncodesAsTable.wrHashData2 (v : Word) : EncodesAsTable.Statement (.wrHashData2 v) :=
  fun _ => by simp only [encode, busWrite]; rfl

theorem EncodesAsTable.wrHashData4 (v : Word) : EncodesAsTable.Statement (.wrHashData4 v) :=
  fun _ => by simp only [encode, busWrite]; rfl

theorem EncodesAsTable.wrHashData8 (v : Word) : EncodesAsTable.Statement (.wrHashData8 v) :=
  fun _ => by simp only [encode, busWrite]; rfl

theorem EncodesAsTable.wrHashAcc (v : Word) : EncodesAsTable.Statement (.wrHashAcc v) :=
  fun _ => by simp only [encode, busWrite]; rfl

theorem EncodesAsTable.rdHashAcc : EncodesAsTable.Statement .rdHashAcc :=
  fun _ => rfl

theorem EncodesAsTable.wrHashTail (v : Word) : EncodesAsTable.Statement (.wrHashTail v) :=
  fun _ => by simp only [encode, busWrite]; rfl

theorem EncodesAsTable.rdHashTail : EncodesAsTable.Statement .rdHashTail :=
  fun _ => rfl

theorem EncodesAsTable.wrHashCount (v : Word) : EncodesAsTable.Statement (.wrHashCount v) :=
  fun _ => by simp only [encode, busWrite]; rfl

theorem EncodesAsTable.rdHashCount : EncodesAsTable.Statement .rdHashCount :=
  fun _ => rfl

theorem EncodesAsTable.rdHashDigest : EncodesAsTable.Statement .rdHashDigest :=
  fun _ => rfl

theorem EncodesAsTable.wrRngSeed (v : Word) : EncodesAsTable.Statement (.wrRngSeed v) :=
  fun _ => by simp only [encode, busWrite]; rfl

theorem EncodesAsTable.wrRngCtr (v : Word) : EncodesAsTable.Statement (.wrRngCtr v) :=
  fun _ => by simp only [encode, busWrite]; rfl

theorem EncodesAsTable.rdRngCtr : EncodesAsTable.Statement .rdRngCtr :=
  fun _ => rfl

theorem EncodesAsTable.wrRngKey (v : Word) : EncodesAsTable.Statement (.wrRngKey v) :=
  fun _ => by simp only [encode, busWrite]; rfl

theorem EncodesAsTable.rdRngKey : EncodesAsTable.Statement .rdRngKey :=
  fun _ => rfl

theorem EncodesAsTable.rdRngNext64 : EncodesAsTable.Statement .rdRngNext64 :=
  fun _ => rfl

theorem EncodesAsTable.rdRngNext32 : EncodesAsTable.Statement .rdRngNext32 :=
  fun _ => rfl

theorem EncodesAsTable.rdRngNext32W : EncodesAsTable.Statement .rdRngNext32W :=
  fun _ => rfl

theorem EncodesAsTable.rdRngNextF64 : EncodesAsTable.Statement .rdRngNextF64 :=
  fun _ => rfl

theorem EncodesAsTable.illegal (d : Desc) (v : Word) : EncodesAsTable.Statement (.illegal d v) := by
  intro h
  have h1 : (!legalDescriptor d) = true := (Bool.and_eq_true _ _ ▸ h : _ ∧ _).1
  show legalDescriptor d = false
  simpa using h1

end Sys2Proof.Laws
end

