-- ==== Sys2Proof/Laws/Step.lean ====
section
/-! SUPPORT. Running the block: a run of one input more is a step and the rest of the run. -/

namespace Sys2Proof.Machine

/-- A run of no inputs changes only the inputs: there are none. -/
theorem runInputs_nil (s : State) : runInputs [] s = .next (s.takeInput []) := rfl

/-- A run of one step more, for any machine, when its first step goes on. -/
theorem core_run_succ (M : Host.Core) (k : Nat) (s t : M.State) (h : M.step s = .next t) :
    M.run (k + 1) s = M.run k t := by
  rw [Host.Core.run.eq_2, h]

/-- A run of one step more of the block, when its first step goes on. -/
theorem run_succ_of_next (k : Nat) (s t : State) (h : step s = .next t) :
    Host.Core.run Sys2Proof.core (k + 1) s = Host.Core.run Sys2Proof.core k t :=
  core_run_succ Sys2Proof.core k s t h

/-- The first step of a run, when it goes on, and the steps after it. -/
theorem runInputs_cons_of_next (a : Input) (l : List Input) (s t : State)
    (h : step (s.takeInput (a :: l)) = .next t) :
    runInputs (a :: l) s = Host.Core.run Sys2Proof.core l.length t :=
  run_succ_of_next _ _ _ h

/-- A run from a state whose inputs are already in place. -/
theorem run_eq_runInputs (s : State) (l : List Input) (h : s.inputs = l) :
    Host.Core.run Sys2Proof.core l.length s = runInputs l s := by
  subst h; rfl

/-- The step on the three kinds of input. -/
theorem step_of_inputs (s : State) :
    step s =
      match s.inputs with
      | [] => .next s
      | .access d v :: rest =>
        match s.inReset with
        | true => .next (s.takeInput rest).notAccepted
        | false => exec (decode d v) (s.takeInput rest)
      | .assertReset cut :: rest => .next ((s.takeInput rest).enterReset cut)
      | .releaseReset :: rest => .next (s.takeInput rest).leaveReset := rfl

end Sys2Proof.Machine
end

