-- ==== Sys2Proof/Laws/Runs.lean ====
section
/-! SUPPORT. What a sequence of transactions does, as a fold of single effects: the lemmas that take a statement about
`runTxns` or `answers` back to single instructions. -/

namespace Sys2Proof.Machine

/-- The next state of an instruction. -/
def after (i : Instr) (s : State) : State :=
  match exec i s with
  | .next t => t
  | .fault _ => s
  | .refused _ => s

/-- Every instruction has a next state. -/
theorem exec_after (i : Instr) (s : State) : exec i s = .next (after i s) := by
  cases i <;> rfl

theorem after_eq_of_exec {i : Instr} {s t : State} (h : exec i s = .next t) : after i s = t := by
  rw [exec_after] at h
  injection h

theorem after_inReset (i : Instr) (s : State) : (after i s).inReset = s.inReset :=
  (exec_keeps_interface i s _ (exec_after i s)).inReset

theorem after_takeInput (i : Instr) (s : State) (l : List Input) :
    after i (s.takeInput l) = (after i s).takeInput l :=
  after_eq_of_exec (exec_takeInput i s _ l (exec_after i s))

/-- The effects of a list of transactions, in order. -/
def afterAll (ts : List Txn) (s : State) : State :=
  ts.foldl (fun u t => after (decodeTxn t) u) s

@[simp] theorem afterAll_nil (s : State) : afterAll [] s = s := rfl

@[simp] theorem afterAll_cons (t : Txn) (ts : List Txn) (s : State) :
    afterAll (t :: ts) s = afterAll ts (after (decodeTxn t) s) := rfl

theorem afterAll_append (a b : List Txn) (s : State) : afterAll (a ++ b) s = afterAll b (afterAll a s) := by
  simp [afterAll, List.foldl_append]

theorem afterAll_inReset (ts : List Txn) (s : State) : (afterAll ts s).inReset = s.inReset := by
  induction ts generalizing s with
  | nil => rfl
  | cons t ts ih => rw [afterAll_cons, ih, after_inReset]

/-- Running transactions on a block that is not in reset is folding their effects, with nothing left to arrive. -/
theorem runTxns_eq (ts : List Txn) (s : State) (h : s.inReset = false) :
    runTxns ts s = .next ((afterAll ts s).takeInput []) := by
  unfold runTxns runInputs
  induction ts generalizing s with
  | nil => rfl
  | cons t ts ih =>
    have hs : step (s.takeInput (txnInput t :: ts.map txnInput)) =
        .next ((after (decodeTxn t) s).takeInput (ts.map txnInput)) := by
      rw [step_of_inputs]
      show (match s.inReset with | true => _ | false => exec (decode t.d t.v) (s.takeInput (ts.map txnInput))) = _
      rw [h]
      exact exec_takeInput _ s _ _ (exec_after _ s)
    refine (run_succ_of_next (ts.map txnInput).length _ _ hs).trans ?_
    exact ih _ ((after_inReset _ s).trans h)

theorem answers_takeInput (ts : List Txn) (s : State) (l : List Input) : answers ts (s.takeInput l) = answers ts s := by
  cases ts with
  | nil => rfl
  | cons t ts => simp only [answers]; rfl

/-- The answers to a list of transactions: the first's answer, then those of the rest after its effect. -/
theorem answers_cons (t : Txn) (ts : List Txn) (s : State) (h : s.inReset = false) :
    answers (t :: ts) s = (after (decodeTxn t) s).resp :: answers ts (after (decodeTxn t) s) := by
  simp only [answers]
  rw [runTxns_eq [t] s h]
  exact congrArg _ (answers_takeInput ts _ [])

theorem answers_append (a b : List Txn) (s : State) (h : s.inReset = false) :
    answers (a ++ b) s = answers a s ++ answers b (afterAll a s) := by
  induction a generalizing s with
  | nil => rfl
  | cons t ts ih =>
    rw [List.cons_append, answers_cons _ _ _ h, answers_cons _ _ _ h, ih _ ((after_inReset _ s).trans h)]
    rfl

end Sys2Proof.Machine
end

