-- ==== Sys2Proof/Tests/Slice0.lean ====
section
/-! SUPPORT. The model's own tests. Expected values come from spec/95_test_vectors.md (by vector id), from the examples in
the rules, or from the encoding tables of spec/30_encoding.md. The `witness_` theorems each show a concrete case that
meets the hypotheses of the statement they name. -/

namespace Sys2Proof.Tests

open Sys2Proof Sys2Proof.Machine

/-- The reset state under the parameter set TP of 95_test_vectors.md (`ACC = 0`, `KEY = RNG_SEED_XOR`). -/
def tpReset : State :=
  { State.reset with acc := 0, key := 0xA0761D6478BD642F }

/-- A state with what arrives put in place. -/
def arriving (l : List Input) : State :=
  { State.reset with inputs := l }

/-! ### WellFormed: an ill-formed term for each check, and well-formed ones -/

theorem test_illegal_with_a_legal_descriptor_is_refused : Instr.wellFormed (.illegal 0x3000 0) = false := by decide

theorem test_illegal_read_with_data_is_refused : Instr.wellFormed (.illegal 0x4000 1) = false := by decide

theorem test_illegal_read_is_well_formed : Instr.wellFormed (.illegal 0x4000 0) = true := by decide

theorem test_illegal_write_is_well_formed : Instr.wellFormed (.illegal 0xB000 5) = true := by decide

/-! ### Decoding: the descriptor of every row, field by field W, SZ, OFF (30_encoding.md R58, R61) -/
theorem test_decode_rdId : decode (0b0#1 ++ 0b011#3 ++ 0b000000000000#12) 0 = .rdId := by decide
theorem test_decode_rdStatus : decode (0b0#1 ++ 0b011#3 ++ 0b000000001000#12) 0 = .rdStatus := by decide
theorem test_decode_wrStatus : decode (0b1#1 ++ 0b011#3 ++ 0b000000001000#12) 7 = .wrStatus 7 := by decide
theorem test_decode_wrMixIn : decode (0b1#1 ++ 0b011#3 ++ 0b000000010000#12) 7 = .wrMixIn 7 := by decide
theorem test_decode_rdMixIn : decode (0b0#1 ++ 0b011#3 ++ 0b000000010000#12) 0 = .rdMixIn := by decide
theorem test_decode_rdMixOut : decode (0b0#1 ++ 0b011#3 ++ 0b000000011000#12) 0 = .rdMixOut := by decide
theorem test_decode_wrHashSeed : decode (0b1#1 ++ 0b011#3 ++ 0b000000100000#12) 7 = .wrHashSeed 7 := by decide
theorem test_decode_rdHashSeed : decode (0b0#1 ++ 0b011#3 ++ 0b000000100000#12) 0 = .rdHashSeed := by decide
theorem test_decode_wrHashLen : decode (0b1#1 ++ 0b011#3 ++ 0b000000101000#12) 7 = .wrHashLen 7 := by decide
theorem test_decode_rdHashLen : decode (0b0#1 ++ 0b011#3 ++ 0b000000101000#12) 0 = .rdHashLen := by decide
theorem test_decode_wrHashCtrl : decode (0b1#1 ++ 0b011#3 ++ 0b000000110000#12) 7 = .wrHashCtrl 7 := by decide
theorem test_decode_wrHashData1 : decode (0b1#1 ++ 0b000#3 ++ 0b000000111000#12) 7 = .wrHashData1 7 := by decide
theorem test_decode_wrHashData2 : decode (0b1#1 ++ 0b001#3 ++ 0b000000111000#12) 7 = .wrHashData2 7 := by decide
theorem test_decode_wrHashData4 : decode (0b1#1 ++ 0b010#3 ++ 0b000000111000#12) 7 = .wrHashData4 7 := by decide
theorem test_decode_wrHashData8 : decode (0b1#1 ++ 0b011#3 ++ 0b000000111000#12) 7 = .wrHashData8 7 := by decide
theorem test_decode_wrHashAcc : decode (0b1#1 ++ 0b011#3 ++ 0b000001000000#12) 7 = .wrHashAcc 7 := by decide
theorem test_decode_rdHashAcc : decode (0b0#1 ++ 0b011#3 ++ 0b000001000000#12) 0 = .rdHashAcc := by decide
theorem test_decode_wrHashTail : decode (0b1#1 ++ 0b011#3 ++ 0b000001001000#12) 7 = .wrHashTail 7 := by decide
theorem test_decode_rdHashTail : decode (0b0#1 ++ 0b011#3 ++ 0b000001001000#12) 0 = .rdHashTail := by decide
theorem test_decode_wrHashCount : decode (0b1#1 ++ 0b011#3 ++ 0b000001010000#12) 7 = .wrHashCount 7 := by decide
theorem test_decode_rdHashCount : decode (0b0#1 ++ 0b011#3 ++ 0b000001010000#12) 0 = .rdHashCount := by decide
theorem test_decode_rdHashDigest : decode (0b0#1 ++ 0b011#3 ++ 0b000001011000#12) 0 = .rdHashDigest := by decide
theorem test_decode_wrRngSeed : decode (0b1#1 ++ 0b011#3 ++ 0b000001100000#12) 7 = .wrRngSeed 7 := by decide
theorem test_decode_wrRngCtr : decode (0b1#1 ++ 0b011#3 ++ 0b000001101000#12) 7 = .wrRngCtr 7 := by decide
theorem test_decode_rdRngCtr : decode (0b0#1 ++ 0b011#3 ++ 0b000001101000#12) 0 = .rdRngCtr := by decide
theorem test_decode_wrRngKey : decode (0b1#1 ++ 0b011#3 ++ 0b000001110000#12) 7 = .wrRngKey 7 := by decide
theorem test_decode_rdRngKey : decode (0b0#1 ++ 0b011#3 ++ 0b000001110000#12) 0 = .rdRngKey := by decide
theorem test_decode_rdRngNext64 : decode (0b0#1 ++ 0b011#3 ++ 0b000001111000#12) 0 = .rdRngNext64 := by decide
theorem test_decode_rdRngNext32 : decode (0b0#1 ++ 0b011#3 ++ 0b000010000000#12) 0 = .rdRngNext32 := by decide
theorem test_decode_rdRngNext32W : decode (0b0#1 ++ 0b010#3 ++ 0b000010000000#12) 0 = .rdRngNext32W := by decide
theorem test_decode_rdRngNextF64 : decode (0b0#1 ++ 0b011#3 ++ 0b000010001000#12) 0 = .rdRngNextF64 := by decide

/-- 95_test_vectors.md V-C3, V-C6, V-C10, V-C11, V-C15: no row of the map. -/
theorem test_decode_illegal :
    decode 0x3030 0 = .illegal 0x3030 0 ∧ decode 0xB000 5 = .illegal 0xB000 5 ∧ decode 0x4000 0 = .illegal 0x4000 0 ∧
      decode 0x8039 0xAA = .illegal 0x8039 0xAA ∧ decode 0x300C 0 = .illegal 0x300C 0 := by decide

theorem test_decodeTableWord_read : decodeTableWord 16 0x3058 = some .rdHashDigest := by decide

theorem test_decodeTableWord_write_has_data_zero : decodeTableWord 16 0xB010 = some (.wrMixIn 0) := by decide

theorem test_decodeTableWord_data_above_the_descriptor :
    decodeTableWord 80 (0xB010 + 0x75BCD15 * 2 ^ 16) = some (.wrMixIn 0x75BCD15) := by decide

theorem test_withFetchWord_runs_next :
    step (State.reset.withFetchWord 16 0x3008) = .next { State.reset with resp := .data 1 } := by rfl

/-! ### The Mixer -/

theorem test_mix_vector_2 : mix Params.tp 0x0000000000000001 = 0x0A2D4D2F39C3BDAE := by decide

theorem test_mix_vector_6 : mix Params.tp 0x00000000075BCD15 = 0x9851D809CF475DAD := by decide

/-- V-M11, the first three steps. -/
theorem test_mix_trace :
    mixStep (.xrr 31) 1 = 0x0000000200000001 ∧
      mixStep (.mul 0xBF58476D1CE4E5B9) 0x0000000200000001 = 0xF92212DF1CE4E5B9 ∧
      mixStep (.xrr 27) 0xF92212DF1CE4E5B9 = 0x65BEA5E038A6BE5A := by decide

/-- V-M16: the shift variant. -/
theorem test_mix_shift_variant : mix Params.tpShift 0x00000000075BCD15 = 0x5679A0034133AB19 := by decide

theorem test_wrMixIn_rdMixIn :
    exec (.wrMixIn 7) State.reset = .next { State.reset with mixIn := 7, resp := .ack } ∧
      exec .rdMixIn { State.reset with mixIn := 7 } = .next { State.reset with mixIn := 7, resp := .data 7 } :=
  ⟨rfl, rfl⟩

/-- 00_scope.md R10 at the ends of the range, R9 on shifts, and 93_implementation_defined.md U5 on `MUL(0)`. -/
theorem test_conforming :
    Params.tp.mixProg.conforming = true ∧ Params.tpShift.mixProg.conforming = false ∧
      MixStep.conforming (.xrr 0) = false ∧ MixStep.conforming (.xrr 1) = true ∧
      MixStep.conforming (.xrr 63) = true ∧ MixStep.conforming (.xrr 64) = false ∧
      MixStep.conforming (.mul 0) = false ∧ MixStep.conforming (.mul 2) = true := by decide

/-! ### The Hasher -/

/-- V-S8: packing. -/
theorem test_le : le [0x72, 0x6C, 0x64, 0x21] = 0x0000000021646C72 ∧ le [] = 0 := by decide

/-- V-H7: START's accumulator. -/
theorem test_start :
    (State.startHash Params.tp { tpReset with hashSeed := 123456789, hashLen := 12, tcnt := 3, count := 5 }).acc
      = 0x6A99B4B1F0261DE9 := by decide

/-- V-H7: "Hello wo" as one 8-byte write. -/
theorem test_append_eight :
    (State.appendBytes Params.tp { tpReset with acc := 0x6A99B4B1F0261DE9 } (lowBytes 8 0x6F77206F6C6C6548)).acc
      = 0x539B2E855FA731BB := by decide

/-- V-H7: "rld!" as one 4-byte write, then the digest. -/
theorem test_append_four_and_digest :
    (State.appendBytes Params.tp { tpReset with acc := 0x539B2E855FA731BB } (lowBytes 4 0x21646C72)).tbuf = 0x21646C72 ∧
      (State.appendBytes Params.tp { tpReset with acc := 0x539B2E855FA731BB } (lowBytes 4 0x21646C72)).tcnt = 4 ∧
      (State.appendBytes Params.tp { tpReset with acc := 0x539B2E855FA731BB }
        (lowBytes 4 0x21646C72)).digest Params.tp = 0x32DE38978DC71253 := by decide

/-- V-H14: the function on "abc". -/
theorem test_hash_abc : Machine.hash Params.tp [0x61, 0x62, 0x63] 0 = 0x7B5258052B87B019 := by decide

/-- V-H9: a full chunk and seven tail bytes. -/
theorem test_hash_fifteen_bytes :
    Machine.hash Params.tp [1, 2, 3, 4, 5, 6, 7, 8, 9, 10, 11, 12, 13, 14, 15] 0 = 0x6FAA9BD8318EBC45 := by decide

/-- V-H19: an 8-byte write that straddles a chunk. -/
theorem test_append_straddles :
    (State.appendBytes Params.tp (tpReset.setTail 3 0xDDEEFF) (lowBytes 8 0x1122334455667788)).acc
        = 0xCF66EE5BA9F4D5F1 ∧
      (State.appendBytes Params.tp (tpReset.setTail 3 0xDDEEFF) (lowBytes 8 0x1122334455667788)).tbuf = 0x112233 := by
  decide

/-- V-H20: COUNT wraps. -/
theorem test_count_wraps :
    (State.appendBytes Params.tp { tpReset with count := 0xFFFFFFFFFFFFFFFF } (lowBytes 1 0)).count = 0 := by decide

/-- V-H17 and V-H18: the write of HASH_TAIL masks, and ignores bits 63:59. -/
theorem test_writeTail_reads_back :
    (tpReset.writeTail 0x0200000000FFAA11).tailWord = 0x020000000000AA11 ∧
      (tpReset.writeTail 0xFF00112233445566).tailWord = 0x0700112233445566 := by decide

/-- V-H22: HASH_CTRL with bit 0 clear. -/
theorem test_wrHashCtrl_without_start :
    exec (.wrHashCtrl 0xFFFFFFFFFFFFFFFE) { State.reset with count := 3 }
      = .next { State.reset with count := 3, resp := .ack } := by rfl

theorem test_wrHashData2_appends_low_byte_first :
    ∃ t, exec (.wrHashData2 0x6C65) State.reset = .next t ∧ t.tbuf = 0x6C65 ∧ t.tcnt = 2 ∧ t.count = 2 :=
  ⟨_, rfl, by decide, by decide, by decide⟩

theorem test_wrHashData1_ignores_upper_bits :
    ∃ t, exec (.wrHashData1 0xFFFFFFFFFFFFFF48) State.reset = .next t ∧ t.tbuf = 0x48 ∧ t.tcnt = 1 ∧ t.count = 1 :=
  ⟨_, rfl, by decide, by decide, by decide⟩

theorem test_hash_registers :
    exec (.wrHashSeed 5) State.reset = .next { State.reset with hashSeed := 5, resp := .ack } ∧
      exec (.wrHashLen 5) State.reset = .next { State.reset with hashLen := 5, resp := .ack } ∧
      exec (.wrHashAcc 5) State.reset = .next { State.reset with acc := 5, resp := .ack } ∧
      exec (.wrHashCount 5) State.reset = .next { State.reset with count := 5, resp := .ack } :=
  ⟨rfl, rfl, rfl, rfl⟩

/-! ### The RNG -/

/-- V-R2, draw 1: seeding with 1, the counter, the draw. -/
theorem test_draw_of_seed_one :
    ((tpReset.seedRng Params.tp 1).advance Params.tp).ctr = 0x9E3779B97F4A7C15 ∧
      (tpReset.seedRng Params.tp 1).key = 0xA0761D6478BD642E ∧
      (tpReset.seedRng Params.tp 1).drawn Params.tp = 0x69FECEDBDDFF293E := by decide

/-- V-R4: the counter wraps. -/
theorem test_counter_wraps :
    ((tpReset.setCtr 0xFFFFFFFFFFFFFFFF).advance Params.tp).ctr = 0x9E3779B97F4A7C14 ∧
      (tpReset.setCtr 0xFFFFFFFFFFFFFFFF).drawn Params.tp = 0x69FECEDBDDFF293E := by decide

/-- V-R5: the upper half of the draw. -/
theorem test_upper32 : upper32 0x69FECEDBDDFF293E = 0x69FECEDB := by decide

/-- V-P7 and V-R2: the binary64 encoding. -/
theorem test_f64bits :
    f64bits (0x00000000000007FF >>> 11) = 0 ∧ f64bits (0x0000000000000800 >>> 11) = 0x3CA0000000000000 ∧
      f64bits (0x0000000000001000 >>> 11) = 0x3CB0000000000000 ∧
      f64bits (0x69FECEDBDDFF293E >>> 11) = 0x3FDA7FB3B6F77FCA ∧
      f64bits (0xFFFFFFFFFFFFFFFF >>> 11) = 0x3FEFFFFFFFFFFFFF := by decide

theorem test_rng_registers :
    exec (.wrRngCtr 9) State.reset = .next { State.reset with ctr := 9, resp := .ack } ∧
      exec (.wrRngKey 9) State.reset = .next { State.reset with key := 9, resp := .ack } ∧
      exec .rdRngCtr { State.reset with ctr := 9 } = .next { State.reset with ctr := 9, resp := .data 9 } :=
  ⟨rfl, rfl, rfl⟩

/-! ### Identification, status, illegal accesses -/

/-- V-P8 and V-C1. -/
theorem test_idWord : idWord .v3 = 0x4D58330000000103 := by decide

/-- V-C2 and V-C19. -/
theorem test_rdStatus_after_reset :
    exec .rdStatus State.reset = .next { State.reset with resp := .data 1 } ∧
      exec .rdStatus { State.reset with accerr := true }
        = .next { State.reset with accerr := true, resp := .data 0x101 } :=
  ⟨rfl, rfl⟩

/-- 43_control.md R120, example: TCNT = 4 and LEN_MATCH = 1. -/
theorem test_statusWord : State.statusWord { tpReset with tcnt := 4, count := 12, hashLen := 12 } = 9 := by decide

/-- V-C16 and V-C17. -/
theorem test_wrStatus :
    exec (.wrStatus 0xFF) { State.reset with accerr := true }
        = .next { State.reset with accerr := true, resp := .ack } ∧
      exec (.wrStatus 0x100) { State.reset with accerr := true } = .next { State.reset with resp := .ack } :=
  ⟨rfl, rfl⟩

/-- V-C4 and V-C7: no draw, no write. -/
theorem test_illegal :
    exec (.illegal 0x2078 0) State.reset = .next { State.reset with accerr := true, resp := .data 0 } ∧
      exec (.illegal 0xA010 7) State.reset = .next { State.reset with accerr := true, resp := .ack } :=
  ⟨rfl, rfl⟩

/-! ### The reset input -/

/-- A write cut short by reset leaves no effect, and a transaction during reset is not accepted. -/
theorem test_reset_input :
    (∃ t, step { arriving [.assertReset (some ⟨0xB010, 7⟩)] with mixIn := 3 } = .next t ∧ t.mixIn = 0 ∧
      t.inReset = true) ∧
      step { arriving [.access 0xB010 7] with inReset := true } = .next { State.reset with inReset := true } :=
  ⟨⟨_, rfl, rfl, rfl⟩, rfl⟩

/-! ### The assembler (30_encoding.md R65, R66) -/

/-- 95_test_vectors.md P2 and P5 lines. -/
theorem test_assemble_lines :
    assembleLine "wr8 HASH_LEN, 12 ; twelve".toList = some [⟨0xB028, 12⟩] ∧
      assembleLine "rd8 0x090".toList = some [⟨0x3090, 0⟩] ∧
      assembleLine "wr1 0x039, 0xAA".toList = some [⟨0x8039, 0xAA⟩] := by decide

/-- 30_encoding.md R66: `hwrite` of seven bytes is a `wr4`, a `wr2` and a `wr1`. -/
theorem test_hwrite_seven_bytes :
    Line.txns (.hwrite [0x48, 0x65, 0x6C, 0x6C, 0x6F, 0x20, 0x77])
      = [⟨0xA038, 0x6C6C6548⟩, ⟨0x9038, 0x206F⟩, ⟨0x8038, 0x77⟩] := by decide

/-- 30_encoding.md R62: sizes that add up carry the bytes, others are no split of them. -/
theorem test_writesOfSizes :
    writesOfSizes [.b1, .b2] [0x48, 0x65, 0x6C] = some [⟨0x8038, 0x48⟩, ⟨0x9038, 0x6C65⟩] ∧
      writesOfSizes [.b4] [0x48, 0x65, 0x6C] = none ∧ writesOfSizes [.b2] [0x48, 0x65, 0x6C] = none := by decide

/-- 30_encoding.md R62: `next_u32` is either read of `RNG_NEXT32`. -/
theorem test_nextU32_both_reads :
    SourceCall.nextU32.isTransactions [⟨0x2080, 0⟩] ∧ SourceCall.nextU32.isTransactions [⟨0x3080, 0⟩] :=
  ⟨.inl rfl, .inr rfl⟩

/-- A line with only a comment has no transactions (assumption 15). -/
theorem test_assemble_comment_line : assembleLine "; nothing".toList = some [] ∧ assembleLine [] = some [] := by decide

/-- 20_memory.md R48 and V-S2: a big-endian host's word of "Hello wo", swapped, is the chunk word. -/
theorem test_byteSwap : byteSwap .b8 0x48656C6C6F20776F = 0x6F77206F6C6C6548 := by decide

theorem test_assemble_escape : assembleLine "hwrite \"A\\x0f\"".toList = some [⟨0x9038, 0x0F41⟩] := by decide

/-! ### Witnesses -/

/-- Parameters whose increment has exactly one factor two. -/
def incTwo : Params := { Params.tp with rngInc := 2 }

/-- Parameters with increment 0. -/
def incZero : Params := { Params.tp with rngInc := 0 }

/-- Parameters with a rotation by 32 as the first and the last step. -/
def halves : Params := { Params.tp with mixProg := ⟨.xrr 32, []⟩ }

theorem witness_DecodeAndEncodeAgree :
    Instr.wellFormed (.illegal 0xC000 5) = true ∧ Instr.wellFormed (.wrHashTail 0xFFFFFFFFFFFFFFFF) = true := by decide

theorem witness_IllegalSpaceIsTheFourGroups :
    4 ≤ (szCode 0x4000).toNat ∧ 0x090 ≤ (offset 0x3090).toNat ∧ (offset 0x3087).toNat % 8 ≠ 0 ∧
      (Reg.id.offset = offset 0xB000 ∧ Size.ofCode (szCode 0xB000) = some .b8 ∧ Size.b8 ∉ Reg.id.writes) ∧
      isIllegal (decode 0xB000 0) = true ∧ isIllegal (decode 0x3088 0) = false := by decide

theorem witness_LegalExactlyWhenTheMapListsIt : isIllegal (decode 0x3088 0) = false := by decide

theorem witness_SplitAccessIsTwoIllegalOnes :
    (Reg.status ≠ .hashData ∧ Size.b8 ∈ Reg.status.writes) ∧
      (Reg.rngNextF64 ≠ .rngNext32 ∧ Size.b8 ∈ Reg.rngNextF64.reads) := by decide

theorem witness_StepRunsTheArrivingTransaction :
    (arriving [.access 0x3000 0]).inputs = .access 0x3000 0 :: [] ∧ (arriving [.access 0x3000 0]).inReset = false :=
  ⟨rfl, rfl⟩

theorem witness_IdleStepKeepsTheState : State.reset.inputs = [] := rfl

theorem witness_ResetInputGivesTheResetValues_asserted :
    (arriving [.assertReset none]).inputs = .assertReset none :: [] ∧
      ∃ t, step { arriving [.assertReset none] with inputs := [.assertReset (some ⟨0x3078, 0⟩)] } = .next t :=
  ⟨rfl, _, rfl⟩

theorem witness_ResetInputGivesTheResetValues_access :
    ({ arriving [.access 0x3000 0] with inReset := true } : State).inputs = .access 0x3000 0 :: [] ∧
      ({ arriving [.access 0x3000 0] with inReset := true } : State).inReset = true :=
  ⟨rfl, rfl⟩

theorem witness_ResetInputGivesTheResetValues_released :
    ({ arriving [.releaseReset] with inReset := true } : State).inputs = .releaseReset :: [] ∧
      ({ arriving [.releaseReset] with inReset := true } : State).inReset = true :=
  ⟨rfl, rfl⟩

theorem witness_ResetInputGivesTheResetValues_instruction :
    exec (.wrHashCtrl 1) { State.reset with inReset := true }
      = .next { State.reset with inReset := true, resp := .ack } := rfl

theorem witness_StepKeepsTheMachineInvariant :
    (arriving [.access 0xB048 0x0200000000FFAA11]).Inv ∧
      ∃ t, step (arriving [.access 0xB048 0x0200000000FFAA11]) = .next t :=
  ⟨⟨by decide, fun h => absurd h (by decide)⟩, _, rfl⟩

theorem witness_StepKeepsTheMachineInvariant_in_reset :
    State.Inv { arriving [.access 0xB010 7] with inReset := true } ∧
      ∃ t, step { arriving [.access 0xB010 7] with inReset := true } = .next t :=
  ⟨⟨by decide, fun _ => ⟨rfl, rfl, rfl, rfl, rfl, rfl, rfl, rfl, rfl, rfl⟩⟩, _, rfl⟩

theorem witness_CleanTailIsTheZeroPaddedWord :
    State.tailClean { State.reset with tcnt := 7, tbuf := 0xFFFFFFFFFFFFFF } = true ∧
      State.tailClean { State.reset with tcnt := 6, tbuf := 0xFFFFFFFFFFFFFF } = false := by decide

theorem witness_TailCountFollowsCount_step :
    State.tailFollowsCount (arriving [.access 0x8038 1]) = true ∧
      (∃ t, step (arriving [.access 0x8038 1]) = .next t) ∧ writesTailOrCount (decode 0x8038 1) = false :=
  ⟨by decide, ⟨_, rfl⟩, by decide⟩

theorem witness_TailCountFollowsCount_start :
    (1 : Word).getLsbD 0 = true ∧
      exec (.wrHashCtrl 1) { State.reset with count := 5 } = .next { State.reset with resp := .ack } :=
  ⟨by decide, rfl⟩

theorem witness_AccErrIsSticky :
    isIllegal (.illegal 0x4000 0) = true ∧
      exec (.illegal 0x4000 0) State.reset = .next { State.reset with accerr := true, resp := .data 0 } ∧
      exec (.wrStatus 0x100) { State.reset with accerr := true } = .next { State.reset with resp := .ack } ∧
      isIllegal (.wrMixIn 7) = false ∧
      exec (.wrMixIn 7) { State.reset with accerr := true }
        = .next { State.reset with accerr := true, mixIn := 7, resp := .ack } :=
  ⟨rfl, rfl, rfl, rfl, rfl⟩

theorem witness_AccErrInfluencesOnlyStatusReads :
    State.reset.inReset = false ∧ ∀ t ∈ [(⟨0xB010, 7⟩ : Txn), ⟨0x3018, 0⟩, ⟨0x4000, 0⟩], decodeTxn t ≠ .rdStatus := by
  decide

theorem witness_UnitsDoNotDependOnEachOther :
    exec (.wrMixIn 7) State.reset = .next { State.reset with mixIn := 7, resp := .ack } ∧
      exec (.wrMixIn 7) { State.reset with count := 1 } = .next { State.reset with mixIn := 7, count := 1, resp := .ack } ∧
      SameMixer State.reset { State.reset with count := 1 } ∧ unitOf (.wrMixIn 7) = .mixer :=
  ⟨rfl, rfl, rfl, rfl⟩

theorem witness_UnitsDoNotDependOnEachOther_hasher :
    exec (.wrHashLen 7) State.reset = .next { State.reset with hashLen := 7, resp := .ack } ∧
      exec (.wrHashLen 7) { State.reset with mixIn := 1 }
        = .next { State.reset with mixIn := 1, hashLen := 7, resp := .ack } ∧
      SameHasher State.reset { State.reset with mixIn := 1 } ∧ unitOf (.wrHashLen 7) = .hasher :=
  ⟨rfl, rfl, ⟨rfl, rfl, rfl, rfl, rfl, rfl⟩, rfl⟩

theorem witness_UnitsDoNotDependOnEachOther_rng :
    exec (.wrRngKey 7) State.reset = .next { State.reset with key := 7, resp := .ack } ∧
      exec (.wrRngKey 7) { State.reset with mixIn := 1 }
        = .next { State.reset with mixIn := 1, key := 7, resp := .ack } ∧
      SameRng State.reset { State.reset with mixIn := 1 } ∧ unitOf (.wrRngKey 7) = .rng :=
  ⟨rfl, rfl, ⟨rfl, rfl⟩, rfl⟩

theorem witness_OnlyDrawReadsHaveSideEffects :
    (isLegalRead .rdHashDigest = true ∧ isDraw .rdHashDigest = false ∧ ∃ t, exec .rdHashDigest State.reset = .next t) ∧
      (isLegalRead .rdRngNext32W = true ∧ isDraw .rdRngNext32W = true ∧
        ∃ t, exec .rdRngNext32W State.reset = .next t) :=
  ⟨⟨rfl, rfl, _, rfl⟩, ⟨rfl, rfl, _, rfl⟩⟩

theorem witness_RepeatedWritesAreIdempotent :
    (isIdempotentWrite (.wrHashCtrl 1) = true ∧
      ∃ t u, exec (.wrHashCtrl 1) State.reset = .next t ∧ exec (.wrHashCtrl 1) t = .next u) ∧
      (isDataWrite (.wrHashData8 0) = true ∧
        ∃ t u, exec (.wrHashData8 0) State.reset = .next t ∧ exec (.wrHashData8 0) t = .next u) :=
  ⟨⟨rfl, _, _, rfl, rfl⟩, ⟨rfl, _, _, rfl, rfl⟩⟩

theorem witness_AnswersFitTheAccessSize :
    (isWrite 0xB000 = true ∧ ∃ t, exec (decode 0xB000 5) State.reset = .next t) ∧
      (isWrite 0x2080 = false ∧ Size.ofCode (szCode 0x2080) = some .b4 ∧
        ∃ t, exec (decode 0x2080 0) State.reset = .next t) :=
  ⟨⟨by decide, _, rfl⟩, by decide, by decide, _, rfl⟩

theorem witness_IgnoredDataBitsHaveNoEffect :
    (1 : Word).getLsbD 0 = (0xFFFFFFFFFFFFFFFF : Word).getLsbD 0 ∧
      (0x100 : Word).getLsbD 8 = (0xFFFFFFFFFFFFFFFF : Word).getLsbD 8 ∧
      (0xF800000000000000 : Word).setWidth 59 = (0 : Word).setWidth 59 ∧
      (0x1FF : Word).setWidth 8 = (0xFF : Word).setWidth 8 ∧
      (0x1FFFF : Word).setWidth 16 = (0xFFFF : Word).setWidth 16 ∧
      (0x1FFFFFFFF : Word).setWidth 32 = (0xFFFFFFFF : Word).setWidth 32 := by decide

theorem witness_IgnoredDataBitsHaveNoEffect_flag :
    isIllegal (decode 0xB010 7) = false ∧
      exec (decode 0xB010 7) { State.reset with accerr := true }
        = .next { State.reset with accerr := true, mixIn := 7, resp := .ack } :=
  ⟨by decide, rfl⟩

theorem witness_MixerStepsActAsDefined : (63 < 64) ∧ (0 % 64 = 0) ∧ (64 % 64 = 0) := by decide

theorem witness_MixIgnoresComplement : Params.tp.mixProg.first = .xrr 31 := rfl

theorem witness_RotationFixedPointsMixToZero :
    halves.mixProg.first = .xrr 32 ∧ rotr64 0x0000000100000001 (32 % 64) = 0x0000000100000001 ∧ Nat.gcd 63 64 = 1 ∧
      rotr64 0xFFFFFFFFFFFFFFFF (63 % 64) = 0xFFFFFFFFFFFFFFFF := by decide

theorem witness_LastRotationMakesPopcountEven :
    Params.tp.mixProg.steps.getLast? = some (.xrr 33) ∧ halves.mixProg.steps.getLast? = some (.xrr 32) := by decide

theorem witness_RotationMixerIsNotInjective :
    MixStep.xrr 27 ∈ Params.tp.mixProg.steps ∧
      ∀ st ∈ Params.tpShift.mixProg.steps,
        (∃ r, st = .xsr r ∧ 1 ≤ r ∧ r ≤ 63) ∨ (∃ c : Word, st = .mul c ∧ c.getLsbD 0 = true) := by
  refine ⟨by decide, fun st h => ?_⟩
  simp only [Params.tpShift, MixProg.steps, List.mem_cons, List.not_mem_nil, or_false] at h
  rcases h with rfl | rfl | rfl | rfl | rfl
  · exact .inl ⟨32, rfl, by decide, by decide⟩
  · exact .inr ⟨_, rfl, by decide⟩
  · exact .inl ⟨29, rfl, by decide, by decide⟩
  · exact .inr ⟨_, rfl, by decide⟩
  · exact .inl ⟨32, rfl, by decide, by decide⟩

theorem witness_MixCallReturnsTheMix : State.reset.inReset = false := rfl

theorem witness_AppendByteActsAsDefined :
    BitVec.toNat (6 : BitVec 3) < 7 ∧ BitVec.toNat (7 : BitVec 3) = 7 ∧ State.tailClean State.reset = true := by decide

theorem witness_StartResults :
    (0xFFFFFFFFFFFFFFFF : Word).getLsbD 0 = true ∧ (0xFFFFFFFFFFFFFFFE : Word).getLsbD 0 = false := by decide

theorem witness_EightByteWriteIsOneChunk : State.reset.tcnt = 0 := rfl

theorem witness_HashTailWriteAndRead :
    6 < (BitVec.extractLsb' 56 3 (0x0700000000000000 : Word)).toNat ∧
      ¬ 0 < (BitVec.extractLsb' 56 3 (0xF8FFFFFFFFFFFFFF : Word)).toNat := by decide

/-- The bytes "rld!" and a status read, as the transactions between START and the digest. -/
def middle : List Txn :=
  [⟨0xA038, 0x21646C72⟩, ⟨0x3008, 0⟩]

theorem witness_EngineComputesTheDigest :
    State.reset.inReset = false ∧ (1 : Word).getLsbD 0 = true ∧
      (∀ t ∈ middle, disturbsHash (decodeTxn t) = false) ∧
      (4 : Word) = BitVec.ofNat 64 (middle.flatMap fun t => appended (decodeTxn t)).length ∧
      (∀ t ∈ middle, writesLen (decodeTxn t) = false) := by decide

theorem witness_StreamingDependsOnlyOnTheBytes :
    State.reset.inReset = false ∧
      (∀ t ∈ [(⟨0x9038, 0x6C65⟩ : Txn)], isDataWrite (decodeTxn t) = true ∨ decodeTxn t = .rdHashDigest) ∧
      (∀ t ∈ [(⟨0x8038, 0x65⟩ : Txn), ⟨0x3058, 0⟩, ⟨0x8038, 0x6C⟩],
        isDataWrite (decodeTxn t) = true ∨ decodeTxn t = .rdHashDigest) ∧
      ([(⟨0x9038, 0x6C65⟩ : Txn)].flatMap fun t => appended (decodeTxn t)) =
        ([(⟨0x8038, 0x65⟩ : Txn), ⟨0x3058, 0⟩, ⟨0x8038, 0x6C⟩].flatMap fun t => appended (decodeTxn t)) := by decide

theorem witness_ComplementedChunkKeepsTheDigest :
    Params.tp.mixProg.first = .xrr 31 ∧ 8 * 0 + 8 ≤ [(1 : Byte), 2, 3, 4, 5, 6, 7, 8].length := by decide

theorem witness_SaveAndRestoreAreComplete :
    State.reset.inReset = false ∧ State.tailClean { State.reset with tcnt := 7, tbuf := 0x77206F6C6C6548 } = true := by
  decide

theorem witness_HashCallReturnsTheDigest :
    State.reset.inReset = false ∧
      (SourceCall.hashData [0x48, 0x65, 0x6C] 5).isTransactions
        [⟨0xB020, 5⟩, ⟨0xB028, 3⟩, ⟨0xB030, 1⟩, ⟨0x8038, 0x48⟩, ⟨0x9038, 0x6C65⟩, ⟨0x3058, 0⟩] :=
  ⟨rfl, [⟨0x8038, 0x48⟩, ⟨0x9038, 0x6C65⟩], ⟨[.b1, .b2], by decide⟩, rfl⟩

theorem witness_FloatDrawIsExact :
    (1 : Word) ≠ 0 ∧ (1 : Word).toNat < 2 ^ 53 ∧ (0x1FFFFFFFFFFFFF : Word) ≠ 0 ∧
      (0x1FFFFFFFFFFFFF : Word).toNat < 2 ^ 53 := by decide

theorem witness_DrawsHaveTheClosedForm :
    State.reset.inReset = false ∧
      (∀ t ∈ [(⟨0x3078, 0⟩ : Txn), ⟨0x3018, 0⟩, ⟨0x2080, 0⟩], writesRng (decodeTxn t) = false) ∧
      drawCount [(⟨0x3078, 0⟩ : Txn), ⟨0x3018, 0⟩, ⟨0x2080, 0⟩] = 2 ∧
      isDraw (decodeTxn ⟨0x3088, 0⟩) = true := by decide

theorem witness_CounterPeriod :
    Params.tp.incOdd = true ∧ (incTwo.rngInc.toNat = 2 ^ 1 * 1 ∧ 1 % 2 = 1) ∧ incZero.rngInc = 0 := by decide

theorem witness_DrawsCoverAllMixerInputs :
    Params.tp.incOdd = true ∧ NonDegen Params.tp ∧ Params.tp.mixProg.first = .xrr 31 ∧
      (State.advance Params.tp { tpReset with ctr := ~~~(tpReset.ctr + Params.tp.rngInc + tpReset.key)
          - tpReset.key - Params.tp.rngInc }).ctr + tpReset.key
        = ~~~((tpReset.advance Params.tp).ctr + tpReset.key) :=
  ⟨by decide, ⟨1, by decide⟩, rfl, by decide⟩

theorem witness_DrawsCoverAllMixerInputs_zero_multiplier :
    MixStep.mul 0 ∈ (MixProg.steps ⟨.xrr 31, [.mul 0]⟩) := by decide

theorem witness_ForkedStreamsAgree :
    State.reset.inReset = false ∧
      ∀ x ∈ [(⟨0x3078, 0⟩ : Txn), ⟨0xB060, 5⟩, ⟨0x3088, 0⟩], unitOf (decodeTxn x) = .rng := by decide

theorem witness_IllegalTransactionResult :
    (arriving [.access 0x3090 0]).inputs = .access 0x3090 0 :: [] ∧ (arriving [.access 0x3090 0]).inReset = false ∧
      ∀ r ∈ opcodeMap, r.code ≠ 0x3090 :=
  ⟨rfl, rfl, by decide⟩

theorem witness_ResetStateMeaning :
    0 < [(0x48 : Byte)].length ∧ [(0x48 : Byte)].length < 2 ^ 64 ∧
      ∀ x ∈ [(⟨0x3078, 0⟩ : Txn)], unitOf (decodeTxn x) = .rng := by decide

end Sys2Proof.Tests
end

/-! PROOFS. The scope of the model (spec/00_scope.md): how a host's access becomes a transaction, what a step runs, and
why the three units are independent. -/

namespace Sys2Proof.Machine

/-! ### Host accesses -/

/-- Reading a size back from its number of bytes. -/
@[simp] theorem Size.ofBytes_bytes (n : Size) : Size.ofBytes n.bytes = some n := by
  cases n <;> rfl

/-- The number of bytes is two to the power of the size code (30_encoding.md R58). -/
theorem Size.two_pow_code (n : Size) : 2 ^ n.code.toNat = n.bytes := by
  cases n <;> rfl

/-- A host's access inside the window is the bus access at its distance from the base. -/
theorem hostAccess_add_offset (b : Nat) (write : Bool) (off : BitVec 12) (n : Size) (v : Word) :
    hostAccess b write (b + off.toNat) n.bytes v = some (if write then busWrite off n v else busRead off n) := by
  have inside : b ≤ b + off.toNat ∧ b + off.toNat < b + 0x1000 := by
    have := off.isLt
    omega
  have distance : BitVec.ofNat 12 (b + off.toNat - b) = off := by simp
  rw [hostAccess, if_pos inside, distance, Size.ofBytes_bytes, Option.map_some]

/-- Settles O7: the window's arithmetic, and the fields of the descriptor that is put together. -/
theorem hostAccessBecomesBusTransaction : Obligations.HostAccessBecomesBusTransaction := by
  intro b off n v
  obtain ⟨wW, wSz, wOff⟩ := fields_of_descriptor true n.code off
  obtain ⟨rW, rSz, rOff⟩ := fields_of_descriptor false n.code off
  exact ⟨hostAccess_add_offset b true off n v, hostAccess_add_offset b false off n v,
    ⟨wW, wSz, wOff, rfl⟩, ⟨rW, rSz, rOff⟩, n.two_pow_code⟩

/-! ### The step -/

/-- Settles O9: of the step's branches, the one for a transaction out of reset. -/
theorem stepRunsTheArrivingTransaction : Obligations.StepRunsTheArrivingTransaction := by
  intro s d v rest hin hreset
  rw [step_of_inputs, hin]
  simp only [hreset, State.takeInput_eq]

/-! ### Independence of the units: what an instruction changes -/

/-- `s` with the elements of unit `w`, and the bus answer, taken from `u`. -/
def State.withUnit (w : BlockUnit) (s u : State) : State :=
  match w with
  | .mixer => { s with mixIn := u.mixIn, resp := u.resp }
  | .hasher =>
    { s with
      hashSeed := u.hashSeed, hashLen := u.hashLen, acc := u.acc, tbuf := u.tbuf, tcnt := u.tcnt, count := u.count,
      resp := u.resp }
  | .rng => { s with ctr := u.ctr, key := u.key, resp := u.resp }
  | .interface => { s with accerr := u.accerr, resp := u.resp }

theorem State.withUnit_sameMixer {w : BlockUnit} (hw : w ≠ .mixer) (s u : State) :
    SameMixer s (s.withUnit w u) := by
  cases w with
  | mixer => exact absurd rfl hw
  | hasher | rng | interface => rfl

theorem State.withUnit_sameHasher {w : BlockUnit} (hw : w ≠ .hasher) (s u : State) :
    SameHasher s (s.withUnit w u) := by
  cases w with
  | hasher => exact absurd rfl hw
  | mixer | rng | interface => constructor <;> rfl

theorem State.withUnit_sameRng {w : BlockUnit} (hw : w ≠ .rng) (s u : State) :
    SameRng s (s.withUnit w u) := by
  cases w with
  | rng => exact absurd rfl hw
  | mixer | hasher | interface => constructor <;> rfl

theorem State.withUnit_accerr {w : BlockUnit} (hw : w ≠ .interface) (s u : State) :
    s.accerr = (s.withUnit w u).accerr := by
  cases w with
  | interface => exact absurd rfl hw
  | mixer | hasher | rng => rfl

/-- Appending bytes and accepting the write changes the Hasher's elements and the answer only. -/
theorem AppendFrame.accept_eq_withUnit {s t : State} (h : AppendFrame s t) :
    t.accept = s.withUnit .hasher t.accept := by
  obtain ⟨hmix, -, -, hctr, hkey, herr, hreset, hinputs, -, hfree⟩ := h
  simp only [State.withUnit, State.accept, State.respond, hmix, hctr, hkey, herr, hreset, hinputs, hfree]

/-- An instruction changes nothing but the elements of its own unit and the bus answer. -/
theorem after_eq_withUnit (i : Instr) (s : State) : after i s = s.withUnit (unitOf i) (after i s) := by
  cases i with
  | wrStatus v =>
    have h : after (.wrStatus v) s = (s.writeStatus v).accept := rfl
    rw [h, State.writeStatus_eq]
    rfl
  | wrHashCtrl v =>
    have h : after (.wrHashCtrl v) s = (if v.getLsbD 0 then s.startHash Config.inst else s).accept := rfl
    rw [h]
    split <;> rfl
  | wrHashData1 v | wrHashData2 v | wrHashData4 v | wrHashData8 v =>
    exact (State.appendBytes_frame Config.inst _ s).accept_eq_withUnit
  | _ => rfl

/-! ### Independence of the units: what an instruction depends on -/

/-- A Mixer instruction's effect and answer are functions of the Mixer's element. -/
theorem after_congr_mixer {i : Instr} (hi : unitOf i = .mixer) {s s' : State} (h : SameMixer s s') :
    SameMixer (after i s) (after i s') ∧ (after i s).resp = (after i s').resp := by
  have hmix : s.mixIn = s'.mixIn := h
  cases i with
  | wrMixIn v => exact ⟨rfl, rfl⟩
  | rdMixIn => exact ⟨hmix, congrArg Response.data hmix⟩
  | rdMixOut => exact ⟨hmix, congrArg (fun m => Response.data (mix Config.inst m)) hmix⟩
  | _ => cases hi

theorem SameHasher.respond {s s' : State} (h : SameHasher s s') (r r' : Response) :
    SameHasher (s.respond r) (s'.respond r') :=
  ⟨h.hashSeed, h.hashLen, h.acc, h.tbuf, h.tcnt, h.count⟩

/-- An accepted write leaves the answer in agreement, and the Hasher's elements if what it wrote does. -/
theorem SameHasher.accept {s s' : State} (h : SameHasher s s') :
    SameHasher s.accept s'.accept ∧ s.accept.resp = s'.accept.resp :=
  ⟨h.respond .ack .ack, rfl⟩

/-- A read that answers with equal values leaves the Hasher's elements and the answer in agreement. -/
theorem SameHasher.answer {s s' : State} (h : SameHasher s s') {v v' : Word} (hv : v = v') :
    SameHasher (s.answer64 v) (s'.answer64 v') ∧ (s.answer64 v).resp = (s'.answer64 v').resp :=
  ⟨h.respond _ _, congrArg Response.data hv⟩

theorem SameHasher.startHash {s s' : State} (h : SameHasher s s') (P : Params) :
    SameHasher (s.startHash P) (s'.startHash P) :=
  ⟨h.hashSeed, h.hashLen, congrArg₂ P.hashInit h.hashSeed h.hashLen, rfl, rfl, rfl⟩

theorem SameHasher.appendByte {s s' : State} (h : SameHasher s s') (P : Params) (b : Byte) :
    SameHasher (s.appendByte P b) (s'.appendByte P b) := by
  obtain ⟨hseed, hlen, hacc, htbuf, htcnt, hcount⟩ := h
  by_cases hw : s.tcnt.toNat < 7
  · rw [State.appendByte_waits P s b hw, State.appendByte_waits P s' b (htcnt ▸ hw)]
    constructor <;> simp only [hseed, hlen, hacc, htbuf, htcnt, hcount]
  · rw [State.appendByte_completes P s b hw, State.appendByte_completes P s' b (htcnt ▸ hw)]
    constructor <;> simp only [hseed, hlen, hacc, htbuf, hcount]

theorem SameHasher.appendBytes {s s' : State} (h : SameHasher s s') (P : Params) (bs : List Byte) :
    SameHasher (s.appendBytes P bs) (s'.appendBytes P bs) := by
  induction bs generalizing s s' with
  | nil => exact h
  | cons b bs ih => exact ih (h.appendByte P b)

theorem SameHasher.tailWord_eq {s s' : State} (h : SameHasher s s') : s.tailWord = s'.tailWord := by
  rw [State.tailWord, State.tailWord, h.tcnt, h.tbuf]

theorem SameHasher.digest_eq {s s' : State} (h : SameHasher s s') (P : Params) : s.digest P = s'.digest P := by
  rw [State.digest, State.digest, h.acc, h.tbuf]

/-- A Hasher instruction's effect and answer are functions of the Hasher's elements. -/
theorem after_congr_hasher {i : Instr} (hi : unitOf i = .hasher) {s s' : State} (h : SameHasher s s') :
    SameHasher (after i s) (after i s') ∧ (after i s).resp = (after i s').resp := by
  cases i with
  | wrHashSeed v => exact SameHasher.accept { h with hashSeed := rfl }
  | wrHashLen v => exact SameHasher.accept { h with hashLen := rfl }
  | wrHashAcc v => exact SameHasher.accept { h with acc := rfl }
  | wrHashTail v => exact SameHasher.accept { h with tbuf := rfl, tcnt := rfl }
  | wrHashCount v => exact SameHasher.accept { h with count := rfl }
  | wrHashCtrl v =>
    refine SameHasher.accept ?_
    split
    · exact h.startHash Config.inst
    · exact h
  | wrHashData1 v | wrHashData2 v | wrHashData4 v | wrHashData8 v =>
    exact (h.appendBytes Config.inst _).accept
  | rdHashSeed => exact h.answer h.hashSeed
  | rdHashLen => exact h.answer h.hashLen
  | rdHashAcc => exact h.answer h.acc
  | rdHashTail => exact h.answer h.tailWord_eq
  | rdHashCount => exact h.answer h.count
  | rdHashDigest => exact h.answer (h.digest_eq Config.inst)
  | _ => cases hi

theorem SameRng.drawn_eq {s s' : State} (h : SameRng s s') (P : Params) : s.drawn P = s'.drawn P := by
  rw [State.drawn_eq, State.drawn_eq, h.ctr, h.key]

/-- A draw, whatever view of the drawn word it answers with, is a function of the RNG's elements. -/
theorem SameRng.draw {s s' : State} (h : SameRng s s') (P : Params) (view : Word → Word) :
    SameRng ((s.advance P).answer64 (view (s.drawn P))) ((s'.advance P).answer64 (view (s'.drawn P))) ∧
      ((s.advance P).answer64 (view (s.drawn P))).resp = ((s'.advance P).answer64 (view (s'.drawn P))).resp :=
  ⟨⟨congrArg (· + P.rngInc) h.ctr, h.key⟩, congrArg (fun x => Response.data (view x)) (h.drawn_eq P)⟩

/-- An RNG instruction's effect and answer are functions of the RNG's elements. -/
theorem after_congr_rng {i : Instr} (hi : unitOf i = .rng) {s s' : State} (h : SameRng s s') :
    SameRng (after i s) (after i s') ∧ (after i s).resp = (after i s').resp := by
  cases i with
  | wrRngSeed v => exact ⟨⟨rfl, rfl⟩, rfl⟩
  | wrRngCtr v => exact ⟨⟨rfl, h.key⟩, rfl⟩
  | wrRngKey v => exact ⟨⟨h.ctr, rfl⟩, rfl⟩
  | rdRngCtr => exact ⟨⟨h.ctr, h.key⟩, congrArg Response.data h.ctr⟩
  | rdRngKey => exact ⟨⟨h.ctr, h.key⟩, congrArg Response.data h.key⟩
  | rdRngNext64 => exact h.draw Config.inst id
  | rdRngNext32 | rdRngNext32W => exact h.draw Config.inst fun x => zext64 (upper32 x)
  | rdRngNextF64 => exact h.draw Config.inst fun x => f64bits (x >>> 11)
  | _ => cases hi

/-- Settles O21: an instruction's effect is confined to its unit, and is a function of its unit's elements. -/
theorem unitsDoNotDependOnEachOther : Obligations.UnitsDoNotDependOnEachOther := by
  intro i s t hst
  obtain rfl := after_eq_of_exec hst
  have hself := after_eq_withUnit i s
  refine ⟨fun hw => ?_, fun hw => ?_, fun hw => ?_, fun hw => ?_, fun s' t' hst' => ?_⟩
  · rw [hself]; exact State.withUnit_sameMixer hw s _
  · rw [hself]; exact State.withUnit_sameHasher hw s _
  · rw [hself]; exact State.withUnit_sameRng hw s _
  · rw [hself]; exact State.withUnit_accerr hw s _
  · obtain rfl := after_eq_of_exec hst'
    exact ⟨fun hi h => after_congr_mixer hi h, fun hi h => after_congr_hasher hi h, fun hi h => after_congr_rng hi h⟩

end Sys2Proof.Machine

/-! PROOFS. The state of the block (spec/10_state.md): the words STATUS and ID read as, the reset values, the
access-error flag, and the invariants of the pending tail. -/

namespace Sys2Proof.Machine

/-! ### The words of STATUS and ID -/

/-- The word STATUS reads as, bit by bit (10_state.md R34). -/
theorem State.statusWord_getLsbD (s : State) (j : Nat) (hj : j < 64) :
    s.statusWord.getLsbD j =
      if j = 0 then s.lenMatch
      else if j < 4 then s.tcnt.getLsbD (j - 1)
      else decide (j = 8) && s.accerr := by
  unfold State.statusWord
  simp only [BitVec.getLsbD_or, BitVec.getLsbD_shiftLeft, zext64_getLsbD, BitVec.getLsbD_ofBool]
  rcases (show j = 0 ∨ (1 ≤ j ∧ j < 4) ∨ (4 ≤ j ∧ j < 8) ∨ j = 8 ∨ 8 < j by omega)
    with rfl | ⟨hlow, hhigh⟩ | ⟨hlow, hhigh⟩ | rfl | hlow
  · simp
  · simp [hj, hhigh, show j < 8 by omega, show j ≠ 0 by omega, show j - 1 < 64 by omega]
  · rw [BitVec.getLsbD_of_ge s.tcnt (j - 1) (by omega)]
    simp [hhigh, show ¬ j < 4 by omega, show j ≠ 0 by omega, show j ≠ 8 by omega]
  · simp
  · rw [BitVec.getLsbD_of_ge s.tcnt (j - 1) (by omega)]
    simp [show ¬ j < 4 by omega, show j ≠ 0 by omega, show j ≠ 8 by omega, show j - 8 ≠ 0 by omega]

/-- Settles O57: each field of STATUS is read off the word's bits. -/
theorem statusFields : Obligations.StatusFields := by
  intro s
  refine ⟨?_, ?_, ?_, ?_, ?_⟩
  · rw [s.statusWord_getLsbD 0 (by decide)]
    rfl
  · ext i hi
    simp [← BitVec.getLsbD_eq_getElem, s.statusWord_getLsbD (1 + i) (by omega), hi, show 1 + i < 4 by omega]
  · ext i hi
    simp [← BitVec.getLsbD_eq_getElem, s.statusWord_getLsbD (4 + i) (by omega), hi, show 4 + i ≠ 8 by omega]
  · rw [s.statusWord_getLsbD 8 (by decide)]
    rfl
  · ext i hi
    simp [← BitVec.getLsbD_eq_getElem, s.statusWord_getLsbD (9 + i) (by omega), hi, show 9 + i ≠ 8 by omega,
      show ¬ 9 + i < 4 by omega]

/-- Settles O58: the three words, one for each version. -/
theorem identificationFields : Obligations.IdentificationFields := by
  refine ⟨fun ver => ?_, rfl, rfl, rfl⟩
  cases ver <;> decide

/-! ### The reset values -/

theorem State.reset_atResetValues : State.reset.AtResetValues := by
  constructor <;> rfl

/-- Settles O11: the reset values are those of START with seed and length 0 and of seeding with 0. -/
theorem resetStateHoldsTheResetValues : Obligations.ResetStateHoldsTheResetValues := by
  refine ⟨State.reset_atResetValues, fun s => ⟨_, exec_wrHashCtrl 1 _, ?_⟩,
    fun s => ⟨_, exec_wrRngSeed 0 s, ?_⟩⟩
  · have hstart : (1 : Word).getLsbD 0 = true := by decide
    rw [if_pos hstart, State.startHash_eq]
    constructor <;> rfl
  · have hkey : (0 : Word) ^^^ Config.inst.rngSeedXor = Config.inst.rngSeedXor := BitVec.zero_xor
    rw [State.seedRng_eq, hkey]
    constructor <;> rfl

/-! ### The access-error flag -/

theorem after_illegal_accerr (d : Desc) (v : Word) (s : State) : (after (.illegal d v) s).accerr = true := rfl

theorem after_wrStatus_accerr (v : Word) (s : State) :
    (after (.wrStatus v) s).accerr = (s.accerr && !v.getLsbD 8) := by
  have h : (after (.wrStatus v) s).accerr = (s.writeStatus v).accerr := rfl
  rw [h, State.writeStatus_eq]
  cases v.getLsbD 8 <;> simp

/-- Every other instruction leaves the flag: outside the interface by independence of the units, and the two reads in it
only answer. -/
theorem after_accerr_of_legal {i : Instr} (hlegal : isIllegal i = false) (hstatus : ∀ v, i ≠ .wrStatus v)
    (s : State) : (after i s).accerr = s.accerr := by
  by_cases hunit : unitOf i = .interface
  · cases i with
    | rdId | rdStatus => rfl
    | wrStatus v => exact absurd rfl (hstatus v)
    | illegal d v => cases hlegal
    | _ => cases hunit
  · rw [after_eq_withUnit]
    exact (State.withUnit_accerr hunit s _).symm

/-- Settles O19: the three kinds of instruction, one lemma each. -/
theorem accErrIsSticky : Obligations.AccErrIsSticky := by
  intro i s t hst
  obtain rfl := after_eq_of_exec hst
  refine ⟨fun hillegal => ?_, ?_, fun hlegal hstatus => after_accerr_of_legal hlegal hstatus s⟩
  · cases i with
    | illegal d v => exact after_illegal_accerr d v s
    | _ => cases hillegal
  · rintro v rfl
    exact after_wrStatus_accerr v s

/-! ### A clean tail -/

/-- A tail is clean when the bytes of `TBUF` from position `TCNT` on are zero (10_state.md R28). -/
theorem State.tailClean_iff_bytes (s : State) :
    s.tailClean = true ↔ ∀ i, s.tcnt.toNat ≤ i → i < 7 → byteAt (zext64 s.tbuf) i = 0 := by
  rw [State.tailClean_iff]
  constructor
  · intro hbits i hcnt _
    ext k hk
    simp [← BitVec.getLsbD_eq_getElem, hbits (8 * i + k) (by omega)]
  · intro hbytes j hj
    by_cases hwidth : j < 56
    · have hbyte := congrArg (·.getLsbD (j % 8)) (hbytes (j / 8) (by omega) (by omega))
      rw [byteAt_getLsbD, zext64_getLsbD, show 8 * (j / 8) + j % 8 = j by omega] at hbyte
      simpa [show j < 64 by omega, Nat.mod_lt] using hbyte
    · exact BitVec.getLsbD_of_ge s.tbuf j (by omega)

/-- A clean `TBUF` has nothing above its pending bytes, so cutting it off there keeps it. -/
theorem State.keepBytes_tbuf_of_tailClean {s : State} (h : s.tailClean = true) :
    keepBytes s.tcnt.toNat (zext64 s.tbuf) = zext64 s.tbuf := by
  ext j hj
  rw [← BitVec.getLsbD_eq_getElem, ← BitVec.getLsbD_eq_getElem, keepBytes_getLsbD, zext64_getLsbD]
  by_cases hpending : j < 8 * s.tcnt.toNat
  · simp [hpending]
  · simp [s.tailClean_iff.mp h j (by omega)]

/-- Settles O17: clean byte by byte, and the packed word of the pending bytes is `TBUF` cut off above them. -/
theorem cleanTailIsTheZeroPaddedWord : Obligations.CleanTailIsTheZeroPaddedWord := by
  intro s
  refine ⟨s.tailClean_iff_bytes, fun hclean => ?_⟩
  calc zext64 s.tbuf
      = keepBytes s.tcnt.toNat (zext64 s.tbuf) := (State.keepBytes_tbuf_of_tailClean hclean).symm
    _ = le (lowBytes s.tcnt.toNat (zext64 s.tbuf)) := (le_lowBytes _ _).symm

/-- An empty buffer is clean whatever the count. -/
theorem State.tailClean_of_tbuf_eq_zero {s : State} (h : s.tbuf = 0) : s.tailClean = true := by
  rw [State.tailClean_iff, h]
  intro j _
  exact BitVec.getLsbD_zero

/-- `append` keeps the tail clean: the byte goes where the first unused one was, or the buffer is emptied. -/
theorem State.appendByte_tailClean (P : Params) {s : State} (b : Byte) (h : s.tailClean = true) :
    (s.appendByte P b).tailClean = true := by
  by_cases hroom : s.tcnt.toNat < 7
  · rw [State.appendByte_waits P s b hroom, State.tailClean_iff]
    intro j (hj : 8 * (s.tcnt + 1).toNat ≤ j)
    have hcnt : (s.tcnt + 1).toNat = s.tcnt.toNat + 1 := by bv_omega
    rw [hcnt] at hj
    by_cases hwidth : j < 56
    · rw [putByte_getLsbD _ _ _ _ hwidth, if_neg (by omega)]
      exact s.tailClean_iff.mp h j (by omega)
    · exact BitVec.getLsbD_of_ge _ j (by omega)
  · rw [State.appendByte_completes P s b hroom]
    exact State.tailClean_of_tbuf_eq_zero rfl

theorem State.appendBytes_tailClean (P : Params) (bs : List Byte) {s : State} (h : s.tailClean = true) :
    (s.appendBytes P bs).tailClean = true := by
  induction bs generalizing s with
  | nil => exact h
  | cons b bs ih => exact ih (State.appendByte_tailClean P b h)

/-- A write of HASH_TAIL leaves a clean tail, whatever it writes (41_hasher.md R94). -/
theorem State.writeTail_tailClean (s : State) (v : Word) : (s.writeTail v).tailClean = true := by
  rw [State.writeTail_eq, State.tailClean_iff]
  intro j hj
  simp only [keepTail_getLsbD, Bool.and_eq_false_iff, decide_eq_false_iff_not]
  exact .inr (by simpa using hj)

/-! ### The count of the tail follows COUNT -/

/-- The relation of 10_state.md R42 on words: `TCNT` is the low three bits of `COUNT`. -/
theorem State.tailFollowsCount_iff (s : State) : s.tailFollowsCount = true ↔ s.tcnt = s.count.setWidth 3 := by
  rw [State.tailFollowsCount, beq_iff_eq, ← BitVec.toNat_inj, BitVec.toNat_setWidth]

/-- `append` counts the tail up modulo 8, whether or not it completes a chunk. -/
theorem State.appendByte_tcnt (P : Params) (s : State) (b : Byte) : (s.appendByte P b).tcnt = s.tcnt + 1 := by
  by_cases hroom : s.tcnt.toNat < 7
  · rw [State.appendByte_waits P s b hroom]
  · have hfull : s.tcnt = 7 := by bv_omega
    rw [State.appendByte_completes P s b hroom, hfull]
    rfl

theorem State.appendByte_tailFollowsCount (P : Params) {s : State} (b : Byte) (h : s.tailFollowsCount = true) :
    (s.appendByte P b).tailFollowsCount = true := by
  rw [State.tailFollowsCount_iff] at h ⊢
  rw [State.appendByte_tcnt, State.appendByte_count, BitVec.setWidth_add _ _ (by decide), ← h]
  rfl

theorem State.appendBytes_tailFollowsCount (P : Params) (bs : List Byte) {s : State} (h : s.tailFollowsCount = true) :
    (s.appendBytes P bs).tailFollowsCount = true := by
  induction bs generalizing s with
  | nil => exact h
  | cons b bs ih => exact ih (State.appendByte_tailFollowsCount P b h)

/-! ### What an instruction does to the tail, and what a step does -/

/-- Whatever an instruction `i` that leads from `s` to `t` can do to the pending tail and the byte count. -/
inductive TailChange (i : Instr) (s t : State) : Prop
  /-- All three elements are kept. -/
  | kept (htbuf : t.tbuf = s.tbuf) (htcnt : t.tcnt = s.tcnt) (hcount : t.count = s.count)
  /-- START empties the tail (41_hasher.md R85). -/
  | started (v : Word) (hi : i = .wrHashCtrl v) (hbit : v.getLsbD 0 = true)
    (ht : t = (s.startHash Config.inst).accept)
  /-- A write of HASH_DATA appends its bytes (41_hasher.md R86). -/
  | appended (hi : isDataWrite i = true) (ht : t = (s.appendBytes Config.inst (appended i)).accept)
  /-- A write of HASH_TAIL replaces the tail (41_hasher.md R94). -/
  | tailWritten (v : Word) (hi : i = .wrHashTail v) (ht : t = (s.writeTail v).accept)
  /-- A write of HASH_COUNT replaces the count (41_hasher.md R96). -/
  | countWritten (v : Word) (hi : i = .wrHashCount v) (ht : t = (s.setCount v).accept)

/-- An instruction of another unit leaves the Hasher's elements. -/
theorem after_sameHasher {i : Instr} (hunit : unitOf i ≠ .hasher) (s : State) : SameHasher s (after i s) := by
  rw [after_eq_withUnit]
  exact State.withUnit_sameHasher hunit s _

theorem after_tailChange (i : Instr) (s : State) : TailChange i s (after i s) := by
  by_cases hunit : unitOf i = .hasher
  · cases i with
    | wrHashCtrl v =>
      cases hbit : v.getLsbD 0 with
      | true => exact .started v rfl hbit (after_eq_of_exec (by rw [exec_wrHashCtrl, if_pos hbit]))
      | false =>
        have hkept : after (.wrHashCtrl v) s = s.accept :=
          after_eq_of_exec (by rw [exec_wrHashCtrl, hbit]; rfl)
        rw [hkept]
        exact .kept rfl rfl rfl
    | wrHashData1 v | wrHashData2 v | wrHashData4 v | wrHashData8 v => exact .appended rfl rfl
    | wrHashTail v => exact .tailWritten v rfl rfl
    | wrHashCount v => exact .countWritten v rfl rfl
    | wrHashSeed v | wrHashLen v | wrHashAcc v => exact .kept rfl rfl rfl
    | rdHashSeed | rdHashLen | rdHashAcc | rdHashTail | rdHashCount | rdHashDigest => exact .kept rfl rfl rfl
    | _ => cases hunit
  · obtain ⟨-, -, -, htbuf, htcnt, hcount⟩ := after_sameHasher hunit s
    exact .kept htbuf.symm htcnt.symm hcount.symm

/-- Whatever a step from `s` to `t` can do. -/
inductive StepChange (s t : State) : Prop
  /-- Nothing arrives, and nothing changes. -/
  | idle (hin : s.inputs = []) (ht : t = s)
  /-- A transaction runs. -/
  | ran (d : Desc) (v : Word) (rest : List Input) (hin : s.inputs = .access d v :: rest)
    (hreset : s.inReset = false) (ht : t = (after (decode d v) s).takeInput rest)
  /-- An input has no effect but to be taken: a transaction during reset, or a release of a reset not asserted. -/
  | ignored (a : Input) (rest : List Input) (hin : s.inputs = a :: rest)
    (ht : t = (s.takeInput rest).respond .idle)
  /-- The reset input is asserted, or released after it was. -/
  | cleared (a : Input) (rest : List Input) (hin : s.inputs = a :: rest) (ht : t.AtResetValues)

theorem State.enterReset_atResetValues (s : State) (cut : Option Txn) : (s.enterReset cut).AtResetValues := by
  obtain ⟨⟨r, n, heq⟩, -⟩ := s.enterReset_cases cut
  rw [heq]
  constructor <;> rfl

theorem State.leaveReset_atResetValues {s : State} (h : s.inReset = true) : s.leaveReset.AtResetValues := by
  rw [State.leaveReset_asserted s h]
  constructor <;> rfl

theorem step_stepChange {s t : State} (h : step s = .next t) : StepChange s t := by
  rw [step_of_inputs] at h
  cases hin : s.inputs with
  | nil =>
    rw [hin] at h
    injection h with h
    exact .idle hin h.symm
  | cons a rest =>
    rw [hin] at h
    cases a with
    | access d v =>
      cases hreset : s.inReset with
      | true =>
        simp only [hreset] at h
        injection h with h
        exact .ignored _ rest hin h.symm
      | false =>
        simp only [hreset] at h
        exact .ran d v rest hin hreset ((after_eq_of_exec h).symm.trans (after_takeInput _ s rest))
    | assertReset cut =>
      injection h with h
      exact .cleared _ rest hin (h ▸ State.enterReset_atResetValues _ cut)
    | releaseReset =>
      injection h with h
      cases hreset : s.inReset with
      | true => exact .cleared _ rest hin (h ▸ State.leaveReset_atResetValues hreset)
      | false => exact .ignored _ rest hin (h.symm.trans (State.leaveReset_released _ hreset))

/-! ### The invariants are kept -/

theorem after_tailClean (i : Instr) {s : State} (h : s.tailClean = true) : (after i s).tailClean = true := by
  cases after_tailChange i s with
  | kept htbuf htcnt _ => rwa [State.tailClean, htbuf, htcnt]
  | started v _ _ ht => rw [ht]; exact State.tailClean_of_tbuf_eq_zero rfl
  | appended _ ht => rw [ht]; exact State.appendBytes_tailClean _ _ h
  | tailWritten v _ ht => rw [ht]; exact s.writeTail_tailClean v
  | countWritten v _ ht => rw [ht]; exact h

theorem after_tailFollowsCount {i : Instr} (hi : writesTailOrCount i = false) {s : State}
    (h : s.tailFollowsCount = true) : (after i s).tailFollowsCount = true := by
  cases after_tailChange i s with
  | kept _ htcnt hcount => rwa [State.tailFollowsCount, htcnt, hcount]
  | started v _ _ ht => rw [ht]; rfl
  | appended _ ht => rw [ht]; exact State.appendBytes_tailFollowsCount _ _ h
  | tailWritten v hwrite _ => rw [hwrite] at hi; cases hi
  | countWritten v hwrite _ => rw [hwrite] at hi; cases hi

/-- At the reset values the invariant holds, in reset or out of it. -/
theorem State.AtResetValues.inv {s : State} (h : s.AtResetValues) : s.Inv :=
  ⟨State.tailClean_of_tbuf_eq_zero h.tbuf, fun _ => h⟩

theorem State.AtResetValues.tailFollowsCount {s : State} (h : s.AtResetValues) : s.tailFollowsCount = true := by
  rw [State.tailFollowsCount, h.tcnt, h.count]
  rfl

/-- The invariant speaks of the elements and the reset input only. -/
theorem State.Inv.takeInput_respond {s : State} (h : s.Inv) (rest : List Input) :
    ((s.takeInput rest).respond .idle).Inv :=
  ⟨h.tail, fun hreset => { h.held hreset with }⟩

/-- Settles O15, by cases on what the step does. -/
theorem stepKeepsTheMachineInvariant : Obligations.StepKeepsTheMachineInvariant := by
  intro s t hs hst
  cases step_stepChange hst with
  | idle _ ht => rwa [ht]
  | ran d v rest _ hreset ht =>
    subst ht
    have hout : ((after (decode d v) s).takeInput rest).inReset = false := (after_inReset _ s).trans hreset
    exact ⟨after_tailClean (decode d v) hs.tail, fun hin => (Bool.false_ne_true (hout.symm.trans hin)).elim⟩
  | ignored a rest _ ht => rw [ht]; exact hs.takeInput_respond rest
  | cleared a rest _ ht => exact ht.inv

/-- Settles O16: the reset values meet the invariant. -/
theorem resetMeetsTheMachineInvariant : Obligations.ResetMeetsTheMachineInvariant :=
  ⟨State.reset_atResetValues.inv, rfl⟩

/-- Settles O18, by cases on what the step does; START empties the tail and zeroes the count. -/
theorem tailCountFollowsCount : Obligations.TailCountFollowsCount := by
  refine ⟨fun s t hs hst hwrites => ?_, fun s t v hbit hst => ?_⟩
  · cases step_stepChange hst with
    | idle _ ht => rwa [ht]
    | ran d v rest hin hreset ht =>
      rw [ht]
      exact after_tailFollowsCount (hwrites d v rest hin hreset) hs
    | ignored a rest _ ht => rw [ht]; exact hs
    | cleared a rest _ ht => exact ht.tailFollowsCount
  · rw [exec_wrHashCtrl, if_pos hbit] at hst
    injection hst with hst
    rw [← hst]
    rfl

end Sys2Proof.Machine

/-! PROOFS. The register window (spec/20_memory.md): which accesses the map lists, what becomes of a split access, which
reads and repeated writes change the state, and the order in which inputs are served. -/

namespace Sys2Proof.Machine

/-! ### The legal accesses -/

theorem Size.ofCode_eq_some_iff (c : BitVec 3) (n : Size) : Size.ofCode c = some n ↔ c = n.code := by
  revert c n
  have hcode : ∀ c : BitVec 3, ∀ n ∈ [Size.b1, .b2, .b4, .b8], Size.ofCode c = some n ↔ c = n.code := by decide
  intro c n
  exact hcode c n (by cases n <;> decide)

theorem Reg.mem_all (r : Reg) : r ∈ Reg.all := by
  cases r <;> decide

theorem Reg.offset_injective : Function.Injective Reg.offset := by
  have hnodup : (Reg.all.map Reg.offset).Nodup := by decide
  intro r r' h
  exact List.inj_on_of_nodup_map hnodup r.mem_all r'.mem_all h

/-- Registers stand at multiples of 8 (20_memory.md R46). -/
theorem Reg.offset_aligned (r : Reg) : r.offset.toNat % 8 = 0 := by
  cases r <;> rfl

theorem legalAccess_iff (write : Bool) (off : BitVec 12) (n : Size) :
    legalAccess write off n = true ↔ ∃ r : Reg, r.offset = off ∧ n ∈ if write then r.writes else r.reads := by
  simp [legalAccess, Reg.mem_all]

/-- At a register's own offset, the sizes that its row lists are legal and no others. -/
theorem legalAccess_offset_iff (write : Bool) (r : Reg) (n : Size) :
    legalAccess write r.offset n = true ↔ n ∈ if write then r.writes else r.reads := by
  rw [legalAccess_iff]
  constructor
  · rintro ⟨r', hoff, hn⟩
    rwa [← Reg.offset_injective hoff]
  · exact fun hn => ⟨r, rfl, hn⟩

/-- A legal access is naturally aligned (20_memory.md R49). -/
theorem aligned_of_legalAccess {write : Bool} {off : BitVec 12} {n : Size} (h : legalAccess write off n = true) :
    off.toNat % 8 = 0 := by
  obtain ⟨r, rfl, -⟩ := (legalAccess_iff write off n).mp h
  exact r.offset_aligned

theorem legalDescriptor_iff (d : Desc) :
    legalDescriptor d = true ↔ ∃ n : Size, szCode d = n.code ∧ legalAccess (isWrite d) (offset d) n = true := by
  simp only [← Size.ofCode_eq_some_iff]
  unfold legalDescriptor
  cases Size.ofCode (szCode d) <;> simp

/-- The register map (20_memory.md R46) and the opcode map (30_encoding.md R61) list the same descriptors. -/
theorem legalDescriptor_iff_mem_opcodeMap (d : Desc) : legalDescriptor d = true ↔ ∃ r ∈ opcodeMap, r.code = d := by
  constructor
  · intro h
    obtain ⟨n, hsz, hlegal⟩ := (legalDescriptor_iff d).mp h
    obtain ⟨r, hoff, hn⟩ := (legalAccess_iff _ _ n).mp hlegal
    have hrows : ∀ r ∈ Reg.all, ∀ write : Bool, ∀ n ∈ if write then r.writes else r.reads,
        ∃ row ∈ opcodeMap, row.code = descriptor write n.code r.offset := by decide
    rw [← descriptor_of_fields d, hsz, ← hoff]
    exact hrows r r.mem_all (isWrite d) n hn
  · have hlegal : ∀ r ∈ opcodeMap, legalDescriptor r.code = true := by decide
    rintro ⟨r, hr, rfl⟩
    exact hlegal r hr

theorem isIllegal_make_of_mem_opcodeMap {r : Row} (hr : r ∈ opcodeMap) (v : Word) : isIllegal (r.make v) = false := by
  have hall : opcodeMap.all (fun r => !isIllegal (r.make v)) = true := rfl
  simpa using List.all_eq_true.mp hall r hr

/-- The decoder's illegal descriptors are those that the register map does not list. -/
theorem isIllegal_decode (d : Desc) (v : Word) : isIllegal (decode d v) = !legalDescriptor d := by
  rcases decode_cases d v with ⟨r, hr, hcode, hdec⟩ | ⟨hno, hdec⟩
  · have hlegal : legalDescriptor d = true := (legalDescriptor_iff_mem_opcodeMap d).mpr ⟨r, hr, hcode⟩
    rw [hdec, hlegal, isIllegal_make_of_mem_opcodeMap hr]
    rfl
  · have hillegal : legalDescriptor d = false := by
      rw [← Bool.not_eq_true, legalDescriptor_iff_mem_opcodeMap]
      rintro ⟨r, hr, hcode⟩
      exact hno r hr hcode
    rw [hdec, hillegal]
    rfl

/-- Settles O5: the decoder's map is the register map, whose offsets are aligned. -/
theorem legalExactlyWhenTheMapListsIt : Obligations.LegalExactlyWhenTheMapListsIt := by
  intro d v
  have hlegal : isIllegal (decode d v) = false ↔ legalDescriptor d = true := by simp [isIllegal_decode]
  refine ⟨hlegal, fun h => ?_⟩
  obtain ⟨n, -, haccess⟩ := (legalDescriptor_iff d).mp (hlegal.mp h)
  exact aligned_of_legalAccess haccess

/-! ### Split accesses -/

theorem legalDescriptor_descriptor (write : Bool) (n : Size) (off : BitVec 12) :
    legalDescriptor (descriptor write n.code off) = legalAccess write off n := by
  obtain ⟨hwrite, hsz, hoff⟩ := fields_of_descriptor write n.code off
  rw [legalDescriptor, hsz, (Size.ofCode_eq_some_iff _ n).mpr rfl, hwrite, hoff]

theorem isIllegal_busWrite (off : BitVec 12) (n : Size) (v : Word) :
    isIllegal (decodeTxn (busWrite off n v)) = !legalAccess true off n := by
  rw [← legalDescriptor_descriptor]
  exact isIllegal_decode _ _

theorem isIllegal_busRead (off : BitVec 12) (n : Size) :
    isIllegal (decodeTxn (busRead off n)) = !legalAccess false off n := by
  rw [← legalDescriptor_descriptor]
  exact isIllegal_decode _ _

theorem Reg.b4_mem_writes_iff (r : Reg) : Size.b4 ∈ r.writes ↔ r = .hashData := by
  cases r <;> decide

theorem Reg.b4_mem_reads_iff (r : Reg) : Size.b4 ∈ r.reads ↔ r = .rngNext32 := by
  cases r <;> decide

/-- No register stands at the upper half of another. -/
theorem not_legalAccess_upper_half (write : Bool) (r : Reg) (n : Size) :
    legalAccess write (r.offset + 4) n = false := by
  rw [← Bool.not_eq_true]
  intro h
  have hreg := r.offset_aligned
  have hhalf := aligned_of_legalAccess h
  bv_omega

/-- Settles O6: only the two excepted registers list a 4-byte access, and no register stands at an upper half. -/
theorem splitAccessIsTwoIllegalOnes : Obligations.SplitAccessIsTwoIllegalOnes := by
  intro r v w
  refine ⟨fun hr _ => ⟨?_, ?_⟩, fun hr _ => ⟨?_, ?_⟩⟩
  · have hlower : ¬ legalAccess true r.offset .b4 = true := by
      rw [legalAccess_offset_iff]
      exact fun h => hr (r.b4_mem_writes_iff.mp h)
    simp [isIllegal_busWrite, hlower]
  · rw [isIllegal_busWrite, not_legalAccess_upper_half]
    rfl
  · have hlower : ¬ legalAccess false r.offset .b4 = true := by
      rw [legalAccess_offset_iff]
      exact fun h => hr (r.b4_mem_reads_iff.mp h)
    simp [isIllegal_busRead, hlower]
  · rw [isIllegal_busRead, not_legalAccess_upper_half]
    rfl

/-! ### The side effects of reads -/

theorem SameElements.of_respond (s : State) (r : Response) : SameElements s (s.respond r) :=
  ⟨⟨rfl, ⟨rfl, rfl, rfl, rfl, rfl, rfl⟩, ⟨rfl, rfl⟩⟩, rfl⟩

/-- A legal read that is no draw only answers. -/
theorem after_eq_respond_of_read {i : Instr} (hread : isLegalRead i = true) (hdraw : isDraw i = false) (s : State) :
    after i s = s.respond (after i s).resp := by
  cases i with
  | rdId | rdStatus | rdMixIn | rdMixOut => rfl
  | rdHashSeed | rdHashLen | rdHashAcc | rdHashTail | rdHashCount | rdHashDigest => rfl
  | rdRngCtr | rdRngKey => rfl
  | rdRngNext64 | rdRngNext32 | rdRngNext32W | rdRngNextF64 => cases hdraw
  | _ => cases hread

/-- The bus answer of the step before has no influence on a legal read. -/
theorem after_respond_of_read {i : Instr} (hread : isLegalRead i = true) (s : State) (r : Response) :
    after i (s.respond r) = after i s := by
  cases i with
  | rdId | rdStatus | rdMixIn | rdMixOut => rfl
  | rdHashSeed | rdHashLen | rdHashAcc | rdHashTail | rdHashCount | rdHashDigest => rfl
  | rdRngCtr | rdRngKey | rdRngNext64 | rdRngNext32 | rdRngNext32W | rdRngNextF64 => rfl
  | _ => cases hread

/-- Repeating a legal read that is no draw gives the same state and answer. -/
theorem after_after_of_read {i : Instr} (hread : isLegalRead i = true) (hdraw : isDraw i = false) (s : State) :
    after i (after i s) = after i s := by
  calc after i (after i s)
      = after i (s.respond (after i s).resp) := congrArg (after i) (after_eq_respond_of_read hread hdraw s)
    _ = after i s := after_respond_of_read hread s _

/-- A draw advances the counter and answers (42_rng.md R105). -/
theorem after_eq_advance_of_draw {i : Instr} (hdraw : isDraw i = true) (s : State) :
    after i s = (s.advance Config.inst).respond (after i s).resp := by
  cases i with
  | rdRngNext64 | rdRngNext32 | rdRngNext32W | rdRngNextF64 => rfl
  | _ => cases hdraw

/-- Settles O22: a read that is no draw only answers, a draw advances the counter. -/
theorem onlyDrawReadsHaveSideEffects : Obligations.OnlyDrawReadsHaveSideEffects := by
  intro i s t hread hst
  obtain rfl := after_eq_of_exec hst
  refine ⟨fun hdraw => ⟨?_, after i s, ?_, ?_, rfl⟩, fun hdraw => after_eq_advance_of_draw hdraw s⟩
  · rw [after_eq_respond_of_read hread hdraw]
    exact .of_respond s _
  · rw [exec_after, after_after_of_read hread hdraw]
  · exact .of_respond (after i s) (after i s).resp

/-! ### Repeated writes -/

theorem State.writeStatus_accept_repeat (s : State) (v : Word) :
    ((s.writeStatus v).accept.writeStatus v).accept = (s.writeStatus v).accept := by
  simp only [State.writeStatus_eq]
  cases v.getLsbD 8 <;> rfl

/-- The writes that 20_memory.md R52 calls idempotent are. START is one because it changes neither the seed nor the
declared length it starts from. -/
theorem after_after_of_idempotentWrite {i : Instr} (hi : isIdempotentWrite i = true) (s : State) :
    after i (after i s) = after i s := by
  cases i with
  | wrStatus v => exact s.writeStatus_accept_repeat v
  | wrHashCtrl v =>
    have hbit : v.getLsbD 0 = true := hi
    have hstart (u : State) : after (.wrHashCtrl v) u = (u.startHash Config.inst).accept :=
      after_eq_of_exec (by rw [exec_wrHashCtrl, if_pos hbit])
    rw [hstart, hstart]
    rfl
  | wrMixIn v | wrHashSeed v | wrHashLen v | wrHashAcc v | wrHashTail v | wrHashCount v => rfl
  | wrRngSeed v | wrRngCtr v | wrRngKey v => rfl
  | _ => cases hi

/-- A write of HASH_DATA appends its bytes and is accepted (41_hasher.md R86). -/
theorem after_of_dataWrite {i : Instr} (hi : isDataWrite i = true) (s : State) :
    after i s = (s.appendBytes Config.inst (appended i)).accept := by
  cases i with
  | wrHashData1 v | wrHashData2 v | wrHashData4 v | wrHashData8 v => rfl
  | _ => cases hi

theorem after_count_of_dataWrite {i : Instr} (hi : isDataWrite i = true) (s : State) :
    (after i s).count = s.count + BitVec.ofNat 64 (appended i).length := by
  rw [after_of_dataWrite hi, State.accept_count, State.appendBytes_count]

/-- A write of HASH_DATA appends at least one byte, and too few for COUNT to come round. -/
theorem appended_length_ne_zero {i : Instr} (hi : isDataWrite i = true) :
    BitVec.ofNat 64 (appended i).length ≠ 0 := by
  cases i with
  | wrHashData1 v | wrHashData2 v | wrHashData4 v | wrHashData8 v => simp [appended, lowBytes]
  | _ => cases hi

/-- Settles O23: the repeated write, and the count of the bytes appended again. -/
theorem repeatedWritesAreIdempotent : Obligations.RepeatedWritesAreIdempotent := by
  intro i s t u hst htu
  obtain rfl := after_eq_of_exec hst
  obtain rfl := after_eq_of_exec htu
  refine ⟨fun hi => after_after_of_idempotentWrite hi s, fun hi => ?_⟩
  have hcount := after_count_of_dataWrite hi (after i s)
  have hmoved := appended_length_ne_zero hi
  exact ⟨hcount, fun h => hmoved (BitVec.add_right_eq_self.mp (hcount.symm.trans h))⟩

/-! ### Inputs served in order -/

/-- The effect of one input (00_scope.md R20; 70_reset_and_hazards.md R135). -/
def State.serve (s : State) : Input → State
  | .access d v =>
    match s.inReset with
    | true => s.notAccepted
    | false => after (decode d v) s
  | .assertReset cut => s.enterReset cut
  | .releaseReset => s.leaveReset

/-- A step serves the oldest input, whatever arrives after it. -/
theorem step_takeInput_cons (s : State) (a : Input) (l : List Input) :
    step (s.takeInput (a :: l)) = .next ((s.serve a).takeInput l) := by
  rw [step_of_inputs]
  cases a with
  | access d v =>
    cases hreset : s.inReset with
    | true => simp only [State.takeInput_inputs, State.takeInput_inReset, State.serve, hreset]; rfl
    | false =>
      simp only [State.takeInput_inputs, State.takeInput_inReset, State.serve, hreset]
      exact exec_takeInput _ s _ l (exec_after _ s)
  | assertReset cut => exact congrArg Host.Outcome.next (State.enterReset_takeInput s cut l)
  | releaseReset => exact congrArg Host.Outcome.next (State.leaveReset_takeInput s l)

/-- A run is the fold of its inputs' effects, with nothing left to arrive. -/
theorem runInputs_eq (l : List Input) (s : State) :
    runInputs l s = .next ((l.foldl State.serve s).takeInput []) := by
  induction l generalizing s with
  | nil => exact runInputs_nil s
  | cons a l ih => exact (runInputs_cons_of_next a l s _ (step_takeInput_cons s a l)).trans (ih (s.serve a))

/-- A run replaces what was arriving before. -/
theorem runInputs_takeInput (l k : List Input) (s : State) : runInputs l (s.takeInput k) = runInputs l s := rfl

/-- Settles O14: a run is a fold over its inputs, and the fold over two lists in sequence is one after the other. -/
theorem runsCompose : Obligations.RunsCompose := by
  intro a b s
  refine ⟨_, _, runInputs_eq a s, (runInputs_takeInput b [] _).trans (runInputs_eq b _), ?_⟩
  rw [runInputs_eq, List.foldl_append]

end Sys2Proof.Machine

/-! PROOFS. The encoding (spec/30_encoding.md): that decoding and encoding are inverse, which descriptors are illegal,
which data bits matter and what the answers look like, and what the assembler's lines and the source's calls expand to
and compute. -/

namespace Sys2Proof.Machine

/-! ### The decoder and the encoder are inverse -/

/-- A well-formed ILLEGAL has a descriptor that the register map does not list, and for a read no data. -/
theorem wellFormed_illegal_iff (d : Desc) (v : Word) :
    (Instr.illegal d v).wellFormed = true ↔ legalDescriptor d = false ∧ (isWrite d = true ∨ v = 0) := by
  simp [Instr.wellFormed, Instr.notLegal, Instr.readHasNoData]

theorem decode_of_not_legalDescriptor {d : Desc} (h : legalDescriptor d = false) (v : Word) :
    decode d v = .illegal d (illegalData d v) := by
  apply decode_of_no_row
  intro r hr hcode
  rw [(legalDescriptor_iff_mem_opcodeMap d).mpr ⟨r, hr, hcode⟩] at h
  cases h

/-- The data that ILLEGAL keeps is all of it, unless a read carries any. -/
theorem illegalData_eq_self {d : Desc} {v : Word} (h : isWrite d = true ∨ v = 0) : illegalData d v = v := by
  rw [illegalData]
  split
  · rfl
  · next hread => exact (h.resolve_left hread).symm

theorem decodeTxn_encode {i : Instr} (h : i.wellFormed = true) : decodeTxn (encode i) = i := by
  cases i with
  | illegal d v =>
    obtain ⟨hlegal, hdata⟩ := (wellFormed_illegal_iff d v).mp h
    exact (decode_of_not_legalDescriptor hlegal v).trans (congrArg _ (illegalData_eq_self hdata))
  | _ => rfl

theorem wellFormed_of_legal {i : Instr} (h : isIllegal i = false) : i.wellFormed = true := by
  cases i with
  | illegal d v => cases h
  | _ => rfl

/-- The encoder writes the columns of each row of the opcode map (30_encoding.md R61): its descriptor, and the data of a
write. -/
theorem encode_make_of_mem_opcodeMap {r : Row} (hr : r ∈ opcodeMap) (v : Word) :
    encode (r.make v) = ⟨r.code, illegalData r.code v⟩ := by
  have hrows : opcodeMap.Forall fun r => encode (r.make v) = ⟨r.code, illegalData r.code v⟩ := by
    simp only [opcodeMap, rowsControlMixer, rowsHasherInput, rowsHasherState, rowsRng, List.cons_append,
      List.nil_append, List.Forall]
    and_intros <;> rfl
  exact List.forall_iff_forall_mem.mp hrows r hr

theorem encode_decode (d : Desc) (v : Word) : encode (decode d v) = ⟨d, illegalData d v⟩ := by
  rcases decode_cases d v with ⟨r, hr, rfl, hdec⟩ | ⟨-, hdec⟩
  · rw [hdec, encode_make_of_mem_opcodeMap hr]
  · rw [hdec, encode]

theorem wellFormed_decode (d : Desc) (v : Word) : (decode d v).wellFormed = true := by
  cases hlegal : legalDescriptor d with
  | true =>
    apply wellFormed_of_legal
    rw [isIllegal_decode, hlegal]
    rfl
  | false =>
    rw [decode_of_not_legalDescriptor hlegal, wellFormed_illegal_iff]
    refine ⟨hlegal, ?_⟩
    cases hwrite : isWrite d with
    | true => exact .inl rfl
    | false => exact .inr (by rw [illegalData, hwrite]; rfl)

/-- Settles O1: the two round trips. -/
theorem decodeAndEncodeAgree : Obligations.DecodeAndEncodeAgree :=
  ⟨fun _ h => decodeTxn_encode h, fun t => ⟨wellFormed_decode t.d t.v, encode_decode t.d t.v⟩⟩

/-- Settles O2: row by row, the search in the map and the shifted columns evaluate. -/
theorem legalDescriptorsOfTheMap : Obligations.LegalDescriptorsOfTheMap := by
  intro v
  and_intros <;> rfl

/-! ### The rows of the opcode map and the illegal space -/

theorem opcodeMap_codes_nodup : (opcodeMap.map Row.code).Nodup := by decide

/-- The mask of every row is 0xFFFF, the whole descriptor (30_encoding.md R60). -/
theorem desc_and_mask (d : Desc) : d &&& 0xFFFF = d :=
  BitVec.and_allOnes

/-- Settles O3: the decoder answers with a row, which is no ILLEGAL, or there is none. -/
theorem decoderSelectsOneRowOrIllegal : Obligations.DecoderSelectsOneRowOrIllegal := by
  refine ⟨opcodeMap_codes_nodup, fun d v => ?_⟩
  rw [desc_and_mask]
  rcases decode_cases d v with ⟨r, hr, hcode, hdec⟩ | ⟨hno, hdec⟩
  · exact .inl ⟨r, hr, hcode, hdec, hdec ▸ isIllegal_make_of_mem_opcodeMap hr v⟩
  · exact .inr ⟨hno, hdec ▸ rfl⟩

theorem Reg.offset_lt (r : Reg) : r.offset.toNat < 0x090 := by
  cases r <;> decide

/-- Below 0x090 there is a register at every multiple of 8 (20_memory.md R46). -/
theorem Reg.exists_offset {off : BitVec 12} (hlt : off.toNat < 0x090) (haligned : off.toNat % 8 = 0) :
    ∃ r : Reg, r.offset = off := by
  have hslots : ∀ k < 18, ∃ r ∈ Reg.all, r.offset = BitVec.ofNat 12 (8 * k) := by decide
  obtain ⟨r, -, hr⟩ := hslots (off.toNat / 8) (by omega)
  exact ⟨r, by rw [hr, show 8 * (off.toNat / 8) = off.toNat by omega, BitVec.ofNat_toNat, BitVec.setWidth_eq]⟩

theorem Size.code_lt (n : Size) : n.code.toNat < 4 := by
  cases n <;> decide

/-- The size codes 0 to 3 are those of the sizes; 4 to 7 are reserved (30_encoding.md R58). -/
theorem Size.exists_code {c : BitVec 3} (h : c.toNat < 4) : ∃ n : Size, c = n.code := by
  have hcodes : ∀ c : BitVec 3, c.toNat < 4 → ∃ n ∈ [Size.b1, .b2, .b4, .b8], c = n.code := by decide
  obtain ⟨n, -, hn⟩ := hcodes c h
  exact ⟨n, hn⟩

/-- The legal descriptors are those outside all four groups of 30_encoding.md R63. -/
theorem legalDescriptor_iff_fields (d : Desc) :
    legalDescriptor d = true ↔
      (szCode d).toNat < 4 ∧ (offset d).toNat < 0x090 ∧ (offset d).toNat % 8 = 0 ∧
        ∀ (r : Reg) (n : Size), r.offset = offset d → Size.ofCode (szCode d) = some n →
          n ∈ if isWrite d then r.writes else r.reads := by
  rw [legalDescriptor_iff]
  constructor
  · rintro ⟨n, hsz, haccess⟩
    obtain ⟨r, hoff, hn⟩ := (legalAccess_iff _ _ n).mp haccess
    refine ⟨hsz ▸ n.code_lt, hoff ▸ r.offset_lt, hoff ▸ r.offset_aligned, fun r' n' hoff' hsz' => ?_⟩
    obtain rfl : r' = r := Reg.offset_injective (hoff'.trans hoff.symm)
    obtain rfl : n = n' := Option.some.inj ((hsz ▸ (Size.ofCode_eq_some_iff _ n).mpr rfl).symm.trans hsz')
    exact hn
  · rintro ⟨hcode, hlt, haligned, hlisted⟩
    obtain ⟨n, hn⟩ := Size.exists_code hcode
    obtain ⟨r, hr⟩ := Reg.exists_offset hlt haligned
    have hmem := hlisted r n hr ((Size.ofCode_eq_some_iff _ n).mpr hn)
    exact ⟨n, hn, (legalAccess_iff _ _ n).mpr ⟨r, hr, hmem⟩⟩

/-- Settles O4: the negation of the fields of a legal descriptor, group by group. -/
theorem illegalSpaceIsTheFourGroups : Obligations.IllegalSpaceIsTheFourGroups := by
  intro d v
  rw [isIllegal_decode, Bool.not_eq_true', ← Bool.not_eq_true, legalDescriptor_iff_fields]
  simp only [not_and_or, not_forall, not_lt, exists_prop]

/-! ### Answers -/

theorem isWrite_busWrite (off : BitVec 12) (n : Size) (v : Word) : isWrite (busWrite off n v).d = true := by
  obtain ⟨hwrite, -, -⟩ := fields_of_descriptor true n.code off
  exact hwrite

theorem szCode_busWrite (off : BitVec 12) (n : Size) (v : Word) : szCode (busWrite off n v).d = n.code := by
  obtain ⟨-, hsz, -⟩ := fields_of_descriptor true n.code off
  exact hsz

/-- A write is accepted (60_exceptions.md R125). -/
theorem after_resp_of_write {i : Instr} (h : isWrite (encode i).d = true) (s : State) : (after i s).resp = .ack := by
  cases i with
  | illegal d v => exact if_pos h
  | wrStatus v | wrMixIn v => rfl
  | wrHashSeed v | wrHashLen v | wrHashCtrl v | wrHashAcc v | wrHashTail v | wrHashCount v => rfl
  | wrHashData1 v | wrHashData2 v | wrHashData4 v | wrHashData8 v => rfl
  | wrRngSeed v | wrRngCtr v | wrRngKey v => rfl
  | _ => cases h

/-- The bits of `x` above the low `8n` of an `n`-byte access with size code `c` are zero (30_encoding.md R59). -/
def FitsSize (c : BitVec 3) (x : Word) : Prop :=
  ∀ n, Size.ofCode c = some n → x >>> (8 * n.bytes) = 0

/-- Nothing is above an 8-byte value. -/
theorem fitsSize_b8 (x : Word) : FitsSize Size.b8.code x := by
  intro n hn
  obtain rfl : Size.b8 = n := Option.some.inj hn
  exact BitVec.ushiftRight_eq_zero (by decide)

theorem fitsSize_zero (c : BitVec 3) : FitsSize c 0 :=
  fun _ _ => BitVec.zero_ushiftRight

/-- A zero-extended 4-byte value has nothing above its 4 bytes. -/
theorem fitsSize_b4_zext64 (x : BitVec 32) : FitsSize Size.b4.code (zext64 x) := by
  intro n hn
  obtain rfl : Size.b4 = n := Option.some.inj hn
  ext j hj
  rw [← BitVec.getLsbD_eq_getElem, BitVec.getLsbD_ushiftRight, zext64_getLsbD,
    BitVec.getLsbD_of_ge x _ (by show 32 ≤ 8 * 4 + j; omega), Bool.and_false]
  simp

/-- A read answers a value of its size; all but one legal read are 8 bytes wide. -/
theorem after_resp_of_read {i : Instr} (h : isWrite (encode i).d = false) (s : State) :
    ∃ x, (after i s).resp = .data x ∧ FitsSize (szCode (encode i).d) x := by
  cases i with
  | illegal d v => exact ⟨0, if_neg (Bool.eq_false_iff.mp h), fitsSize_zero _⟩
  | rdRngNext32W => exact ⟨_, rfl, fitsSize_b4_zext64 _⟩
  | rdId | rdStatus | rdMixIn | rdMixOut => exact ⟨_, rfl, fitsSize_b8 _⟩
  | rdHashSeed | rdHashLen | rdHashAcc | rdHashTail | rdHashCount | rdHashDigest => exact ⟨_, rfl, fitsSize_b8 _⟩
  | rdRngCtr | rdRngKey | rdRngNext64 | rdRngNext32 | rdRngNextF64 => exact ⟨_, rfl, fitsSize_b8 _⟩
  | _ => cases (isWrite_busWrite _ _ _).symm.trans h

/-- Settles O24: the two kinds of access, read off the encoding of the decoded instruction. -/
theorem answersFitTheAccessSize : Obligations.AnswersFitTheAccessSize := by
  intro d v s t hst
  obtain rfl := after_eq_of_exec hst
  have hd : (encode (decode d v)).d = d := congrArg Txn.d (encode_decode d v)
  refine ⟨fun hwrite => after_resp_of_write (by rw [hd, hwrite]) s, fun hread => ?_⟩
  have hanswer := after_resp_of_read (i := decode d v) (by rw [hd, hread]) s
  rwa [hd] at hanswer

/-! ### Ignored data bits -/

/-- Words that agree on their low bits agree on every field within them. -/
theorem extractLsb'_congr {k start len : Nat} {v w : Word} (h : v.setWidth k = w.setWidth k) (hk : start + len ≤ k) :
    BitVec.extractLsb' start len v = BitVec.extractLsb' start len w := by
  ext j hj
  have hbit := congrArg (·.getLsbD (start + j)) h
  simpa [show start + j < k by omega, hj, ← BitVec.getLsbD_eq_getElem] using hbit

theorem lowBytes_congr {n : Nat} {v w : Word} (h : v.setWidth (8 * n) = w.setWidth (8 * n)) :
    lowBytes n v = lowBytes n w := by
  apply List.map_congr_left
  intro i hi
  rw [List.mem_range] at hi
  exact extractLsb'_congr h (by omega)

theorem State.writeTail_congr {v w : Word} (h : v.setWidth 59 = w.setWidth 59) (s : State) :
    s.writeTail v = s.writeTail w := by
  have hcount : tailCountOf v = tailCountOf w := extractLsb'_congr h (by decide)
  have hbytes : tailBytesOf v = tailBytesOf w := extractLsb'_congr h (by decide)
  rw [State.writeTail, State.writeTail, hcount, hbytes]

/-- No legal instruction sets `ACCERR`. -/
theorem accerr_of_after_legal {i : Instr} (hi : isIllegal i = false) {s : State} (h : (after i s).accerr = true) :
    s.accerr = true := by
  by_cases hstatus : ∃ v, i = .wrStatus v
  · obtain ⟨v, rfl⟩ := hstatus
    rw [after_wrStatus_accerr, Bool.and_eq_true] at h
    obtain ⟨hset, -⟩ := h
    exact hset
  · rwa [after_accerr_of_legal hi (not_exists.mp hstatus)] at h

/-- Settles O25: each meaning uses a field of its data, legality is the descriptor's, and legal instructions at most
clear the flag. -/
theorem ignoredDataBitsHaveNoEffect : Obligations.IgnoredDataBitsHaveNoEffect := by
  refine ⟨fun v w s => ⟨fun h => ?_, fun h => ?_, fun h => ?_, fun h => ?_, fun h => ?_, fun h => ?_⟩,
    fun d v w => ?_, fun d v s t hlegal hst haccerr => ?_⟩
  · rw [exec_wrHashCtrl, exec_wrHashCtrl, h]
  · rw [exec_wrStatus, exec_wrStatus, State.writeStatus_eq, State.writeStatus_eq, h]
  · rw [exec_wrHashTail, exec_wrHashTail, State.writeTail_congr h]
  · rw [exec_wrHashData1, exec_wrHashData1, lowBytes_congr h]
  · rw [exec_wrHashData2, exec_wrHashData2, lowBytes_congr h]
  · rw [exec_wrHashData4, exec_wrHashData4, lowBytes_congr h]
  · rw [isIllegal_decode, isIllegal_decode]
  · obtain rfl := after_eq_of_exec hst
    exact accerr_of_after_legal hlegal haccerr

/-! ### The call mix -/

theorem answers_mixCall (s : State) (v : Word) (h : s.inReset = false) :
    answers (Line.txns (.mixCall v)) s = [.ack, .data (mix Config.inst v)] := by
  have hwrite : after (decodeTxn (writeReg .mixIn .b8 v)) s = (s.setMixIn v).accept := rfl
  have hread (u : State) : after (decodeTxn (readReg .mixOut .b8)) u = u.answer64 (mix Config.inst u.mixIn) := rfl
  rw [Line.txns, answers_cons _ _ s h, hwrite, answers_cons _ _ (s.setMixIn v).accept h, hread]
  rfl

/-- Settles O34: the call's answers, and those of a second call after the first. -/
theorem mixCallReturnsTheMix : Obligations.MixCallReturnsTheMix := by
  intro s v h
  refine ⟨answers_mixCall s v h, ?_⟩
  rw [answers_append _ _ s h, answers_mixCall s v h, answers_mixCall _ _ ((afterAll_inReset _ s).trans h)]
  rfl

/-! ### Bytes carried by HASH_DATA writes -/

theorem carriedBy_nil : carriedBy [] [] :=
  ⟨[], rfl⟩

/-- A write of the first bytes, and writes that carry the rest. -/
theorem carriedBy_write {n : Size} {bs : List Byte} {ts : List Txn} (hn : n.bytes ≤ bs.length)
    (hrest : carriedBy (bs.drop n.bytes) ts) : carriedBy bs (writeReg .hashData n (le (bs.take n.bytes)) :: ts) := by
  obtain ⟨ns, hns⟩ := hrest
  exact ⟨n :: ns, by rw [writesOfSizes, if_pos hn, hns, Option.map_some]⟩

/-- Writes that carry all bytes are HASH_DATA writes, and append exactly them. -/
theorem carriedBy.appends {bs : List Byte} {ts : List Txn} (h : carriedBy bs ts) :
    (∀ t ∈ ts, isDataWrite (decodeTxn t) = true) ∧ (ts.flatMap fun t => appended (decodeTxn t)) = bs := by
  obtain ⟨ns, hns⟩ := h
  exact writesOfSizes_carries ns bs ts hns

/-- Of fewer bytes than two writes hold, at most one write is made: what is left is the remainder. -/
theorem dataRest_eq_drop {n : Size} {bs : List Byte} (h : bs.length < 2 * n.bytes) :
    dataRest n bs = bs.drop (bs.length - bs.length % n.bytes) := by
  rw [dataRest]
  split
  · next hn =>
    have hmod : bs.length % n.bytes = bs.length - n.bytes := by
      rw [Nat.mod_eq_sub_mod hn, Nat.mod_eq_of_lt (by omega)]
    rw [hmod, Nat.sub_sub_self hn]
  · next hn => rw [Nat.mod_eq_of_lt (by omega), Nat.sub_self, List.drop_zero]

theorem dataRest_length {n : Size} {bs : List Byte} (h : bs.length < 2 * n.bytes) :
    (dataRest n bs).length = bs.length % n.bytes := by
  rw [dataRest_eq_drop h, List.length_drop]
  exact Nat.sub_sub_self (Nat.mod_le _ _)

theorem carriedBy_dataWrite {n : Size} {bs : List Byte} {ts : List Txn} (h : carriedBy (dataRest n bs) ts) :
    carriedBy bs (dataWrite n bs ++ ts) := by
  unfold dataRest at h
  unfold dataWrite
  split at h
  · next hn => rw [if_pos hn]; exact carriedBy_write hn h
  · next hn => rwa [if_neg hn]

/-- What is left of fewer than 8 bytes after the `wr4`, and after the `wr2`. -/
theorem hwriteTail_rest_lengths {bs : List Byte} (h : bs.length < 8) :
    (dataRest .b4 bs).length = bs.length % 4 ∧ (dataRest .b2 (dataRest .b4 bs)).length = bs.length % 2 := by
  have h4 : (dataRest .b4 bs).length = bs.length % 4 := dataRest_length h
  have h2 : (dataRest .b2 (dataRest .b4 bs)).length = (dataRest .b4 bs).length % 2 :=
    dataRest_length (show _ < 4 by omega)
  exact ⟨h4, by omega⟩

/-- Fewer than 8 bytes are used up by one write of each smaller size. -/
theorem carriedBy_hwriteTail {bs : List Byte} (h : bs.length < 8) : carriedBy bs (hwriteTail bs) := by
  obtain ⟨-, h2⟩ := hwriteTail_rest_lengths h
  have hnone : dataRest .b1 (dataRest .b2 (dataRest .b4 bs)) = [] := by
    rw [← List.length_eq_zero_iff, dataRest_length (show _ < 2 by omega)]
    exact Nat.mod_one _
  rw [hwriteTail, List.append_assoc, ← List.append_nil (dataWrite .b1 _)]
  exact carriedBy_dataWrite (carriedBy_dataWrite (carriedBy_dataWrite (hnone ▸ carriedBy_nil)))

/-- The `wr8` writes of `hwrite`, for the first `q` chunks of `bs`. -/
def chunkWrites (q : Nat) (bs : List Byte) : List Txn :=
  (List.range q).map fun i => writeReg .hashData .b8 (le ((bs.drop (8 * i)).take 8))

theorem chunkWrites_succ (q : Nat) (bs : List Byte) :
    chunkWrites (q + 1) bs = writeReg .hashData .b8 (le (bs.take 8)) :: chunkWrites q (bs.drop 8) := by
  simp only [chunkWrites, List.range_succ_eq_map, List.map_cons, List.map_map, List.drop_drop]
  congr 1
  apply List.map_congr_left
  intro i _
  simp only [Function.comp, Nat.mul_succ, Nat.add_comm]

theorem hwriteTxns_eq (bs : List Byte) :
    hwriteTxns bs = chunkWrites (bs.length / 8) bs ++ hwriteTail (bs.drop (8 * (bs.length / 8))) := rfl

theorem carriedBy_chunkWrites {q : Nat} {bs : List Byte} {ts : List Txn} (hq : 8 * q ≤ bs.length)
    (hrest : carriedBy (bs.drop (8 * q)) ts) : carriedBy bs (chunkWrites q bs ++ ts) := by
  induction q generalizing bs with
  | zero => exact hrest
  | succ q ih =>
    rw [chunkWrites_succ]
    refine carriedBy_write (n := .b8) (show 8 ≤ bs.length by omega) (ih ?_ ?_)
    · show 8 * q ≤ (bs.drop 8).length
      rw [List.length_drop]
      omega
    · show carriedBy ((bs.drop 8).drop (8 * q)) ts
      rwa [List.drop_drop, Nat.add_comm, ← Nat.mul_succ]

theorem carriedBy_hwriteTxns (bs : List Byte) : carriedBy bs (hwriteTxns bs) := by
  rw [hwriteTxns_eq]
  refine carriedBy_chunkWrites (Nat.mul_div_le _ 8) (carriedBy_hwriteTail ?_)
  rw [List.length_drop]
  omega

/-! ### The expansion of hwrite -/

theorem dataWrite_length_le (n : Size) (bs : List Byte) : (dataWrite n bs).length ≤ 1 := by
  rw [dataWrite]
  split <;> simp

theorem hwriteTail_length_le (bs : List Byte) : (hwriteTail bs).length ≤ 3 := by
  have h4 := dataWrite_length_le .b4 bs
  have h2 := dataWrite_length_le .b2 (dataRest .b4 bs)
  have h1 := dataWrite_length_le .b1 (dataRest .b2 (dataRest .b4 bs))
  rw [hwriteTail, List.length_append, List.length_append]
  omega

/-- The last writes of `hwrite`, each with its condition on the number of bytes (30_encoding.md R66). -/
theorem hwriteTail_eq {bs : List Byte} (h : bs.length < 8) :
    hwriteTail bs =
      (if 4 ≤ bs.length then [⟨0xA038, le (bs.take 4)⟩] else [])
        ++ (if 2 ≤ bs.length % 4 then [⟨0x9038, le ((bs.drop (bs.length - bs.length % 4)).take 2)⟩] else [])
        ++ (if bs.length % 2 = 1 then [⟨0x8038, le ((bs.drop (bs.length - 1)).take 1)⟩] else []) := by
  obtain ⟨hlen4, hlen2⟩ := hwriteTail_rest_lengths h
  have hrest4 : dataRest .b4 bs = bs.drop (bs.length - bs.length % 4) := dataRest_eq_drop h
  have hrest2 : dataRest .b2 (dataRest .b4 bs) = bs.drop (bs.length - bs.length % 2) := by
    rw [dataRest_eq_drop (show _ < 4 by omega), hlen4, hrest4, List.drop_drop]
    congr 1
    simp only [Size.bytes]
    omega
  rw [hwriteTail]
  congr 1
  · congr 1
    rw [dataWrite, hlen4, hrest4]
    rfl
  · rw [dataWrite, hlen2, hrest2]
    by_cases hodd : bs.length % 2 = 1
    · rw [hodd]; rfl
    · rw [if_neg hodd, if_neg (show ¬ Size.b1.bytes ≤ bs.length % 2 by simp only [Size.bytes]; omega)]

theorem countP_chunkWrites_narrow (q : Nat) (bs : List Byte) :
    (chunkWrites q bs).countP (fun t => szCode t.d != 3) = 0 := by
  rw [List.countP_eq_zero]
  intro t ht
  obtain ⟨i, -, rfl⟩ := List.mem_map.mp ht
  simp [writeReg, szCode_busWrite, Size.code]

/-- Settles O47: the expansion write by write, the bytes it carries, and the writes that are not `wr8`. -/
theorem hwriteCarriesTheBytes : Obligations.HwriteCarriesTheBytes := by
  intro bs
  have hrest : (bs.drop (8 * (bs.length / 8))).length = bs.length % 8 := by
    rw [List.length_drop]
    omega
  obtain ⟨hdata, hbytes⟩ := (carriedBy_hwriteTxns bs).appends
  have htail := hwriteTail_length_le (bs.drop (8 * (bs.length / 8)))
  refine ⟨?_, hdata, hbytes, ?_, ?_⟩
  · have hlast : bs.length % 8 % 2 = 1 → 8 * (bs.length / 8) + (bs.length % 8 - 1) = bs.length - 1 := by omega
    show hwriteTxns bs = _
    rw [hwriteTxns_eq, hwriteTail_eq (by omega)]
    simp only [hrest, List.drop_drop, ← List.append_assoc]
    congr 1
    split
    · next hodd => rw [hlast hodd]
    · rfl
  · have hchunks : (chunkWrites (bs.length / 8) bs).countP (fun t => szCode t.d != 3) = 0 :=
      countP_chunkWrites_narrow _ bs
    show (hwriteTxns bs).countP _ ≤ 3
    rw [hwriteTxns_eq, List.countP_append, hchunks, Nat.zero_add]
    exact List.countP_le_length.trans htail
  · show (hwriteTxns bs).length ≤ _
    rw [hwriteTxns_eq, List.length_append, chunkWrites, List.length_map, List.length_range]
    omega

/-! ### The lines of the assembler and the source's calls -/

/-- Settles O8: for `hash` and `write` the split of `hwrite` is one of the allowed ones; the other expansions are the
listed transactions. -/
theorem pseudoInstructionExpansions : Obligations.PseudoInstructionExpansions := by
  refine ⟨fun call => ?_, fun ts => Iff.rfl, fun v s l c k bs => ?_⟩
  · cases call with
    | hashData d seed => exact ⟨hwriteTxns d, carriedBy_hwriteTxns d, rfl⟩
    | builderWrite bs => exact carriedBy_hwriteTxns bs
    | nextU32 => exact .inl rfl
    | _ => rfl
  · and_intros <;> rfl

/-! ### The digest of the appended bytes -/

/-- Eight bytes as a chunk word, from the seven that wait and the one that completes them. -/
theorem chunkWord_eq_le {tb : BitVec 56} {bs : List Byte} (b : Byte) (h : bs.length = 7) (htb : zext64 tb = le bs) :
    chunkWord tb b = le (bs ++ [b]) := by
  ext j hj
  rw [← BitVec.getLsbD_eq_getElem, ← BitVec.getLsbD_eq_getElem, chunkWord_getLsbD _ _ _ hj, le_getLsbD _ _ hj]
  have hbit := congrArg (·.getLsbD j) htb
  simp only [zext64_getLsbD, le_getLsbD _ _ hj, decide_eq_true hj, Bool.true_and] at hbit
  split
  · next hlow => rw [hbit, List.getElem?_append_left (by omega)]
  · next hhigh =>
    rw [show j / 8 = bs.length by omega, List.getElem?_concat_length, Option.getD_some, show j % 8 = j - 56 by omega]

/-- Up to seven bytes appended to an empty tail wait there as their little-endian word. -/
theorem State.appendBytes_short (P : Params) {s : State} {bs : List Byte} (hcnt : s.tcnt = 0) (hbuf : s.tbuf = 0)
    (h : bs.length ≤ 7) :
    (s.appendBytes P bs).acc = s.acc ∧ (s.appendBytes P bs).tcnt.toNat = bs.length ∧
      zext64 (s.appendBytes P bs).tbuf = le bs := by
  have hempty : s.tcnt.toNat = 0 := by rw [hcnt]; rfl
  obtain ⟨tb, heq, htb⟩ := State.appendBytes_waits P bs s (by omega)
  rw [heq]
  refine ⟨rfl, ?_, ?_⟩
  · show (s.tcnt + BitVec.ofNat 3 bs.length).toNat = bs.length
    rw [BitVec.toNat_add, hempty, Nat.zero_add, BitVec.toNat_ofNat, Nat.mod_mod, Nat.mod_eq_of_lt (by omega)]
  · ext j hj
    show (zext64 tb)[j] = _
    rw [← BitVec.getLsbD_eq_getElem, ← BitVec.getLsbD_eq_getElem, le_getLsbD _ _ hj, zext64_getLsbD, decide_eq_true hj,
      Bool.true_and]
    by_cases hin : j < 8 * bs.length
    · rw [htb j (by omega), if_neg (by omega), hempty, Nat.sub_zero]
    · rw [List.getElem?_eq_none (by omega)]
      by_cases hwidth : j < 56
      · rw [htb j hwidth, if_pos (by omega), hbuf]
        simp
      · rw [BitVec.getLsbD_of_ge tb j (by omega)]
        simp

/-- Eight bytes appended to an empty tail are one chunk (41_hasher.md R84). -/
theorem State.appendBytes_chunk (P : Params) {s : State} {c : List Byte} (hcnt : s.tcnt = 0) (hbuf : s.tbuf = 0)
    (h : c.length = 8) :
    (s.appendBytes P c).acc = mix P (s.acc ^^^ le c) ∧ (s.appendBytes P c).tcnt = 0 ∧
      (s.appendBytes P c).tbuf = 0 := by
  obtain ⟨bs, b, rfl⟩ := List.eq_nil_or_concat' c |>.resolve_left (by rintro rfl; cases h)
  have hlen : bs.length = 7 := by simpa using h
  obtain ⟨hacc, htcnt, htbuf⟩ := State.appendBytes_short P hcnt hbuf hlen.le
  rw [State.appendBytes_append, State.appendBytes_cons, State.appendBytes_nil,
    State.appendByte_completes P _ b (by omega), hacc, chunkWord_eq_le b hlen htbuf]
  exact ⟨rfl, rfl, rfl⟩

/-- The first chunk of a message, mixed into the accumulator, and the message after it (41_hasher.md R80). -/
theorem hashFrom_of_chunk (P : Params) (acc : Word) {d : List Byte} (h : 8 ≤ d.length) :
    hashFrom P acc d = hashFrom P (mix P (acc ^^^ le (d.take 8))) (d.drop 8) := by
  have hlen : d.length / 8 = (d.drop 8).length / 8 + 1 := by
    rw [List.length_drop]
    omega
  have hrest : (d.drop 8).drop (8 * ((d.drop 8).length / 8)) = d.drop (8 * (d.length / 8)) := by
    rw [List.drop_drop, hlen]
    congr 1
    omega
  have hchunk (a : Word) (i : Nat) : hashChunk P (d.drop 8) a i = hashChunk P d a (i + 1) := by
    rw [hashChunk, hashChunk, List.drop_drop, Nat.mul_succ, Nat.add_comm 8]
  have hfirst : hashChunk P d acc 0 = mix P (acc ^^^ le (d.take 8)) := rfl
  rw [hashFrom, hashFrom, hrest, hlen, List.range_succ_eq_map, List.foldl_cons, List.foldl_map, hfirst]
  simp only [funext₂ hchunk, Nat.succ_eq_add_one]

theorem hashFrom_short (P : Params) (acc : Word) {d : List Byte} (h : d.length < 8) :
    hashFrom P acc d = mix P (acc ^^^ le d) := by
  rw [hashFrom, Nat.div_eq_of_lt h]
  rfl

/-- The engine and the function agree from any accumulator: the digest after appending to an empty tail is that of the
appended bytes (41_hasher.md R97). By recursion on the bytes, a chunk at a time. -/
theorem State.digest_appendBytes (P : Params) (bs : List Byte) (s : State) (hcnt : s.tcnt = 0) (hbuf : s.tbuf = 0) :
    (s.appendBytes P bs).digest P = hashFrom P s.acc bs := by
  by_cases hlen : bs.length < 8
  · obtain ⟨hacc, -, htbuf⟩ := State.appendBytes_short P hcnt hbuf (Nat.le_of_lt_succ hlen)
    rw [State.digest, hacc, htbuf, hashFrom_short P _ hlen]
  · have hchunk : (bs.take 8).length = 8 := by rw [List.length_take]; omega
    obtain ⟨hacc, htcnt, htbuf⟩ := State.appendBytes_chunk P hcnt hbuf hchunk
    rw [hashFrom_of_chunk P _ (by omega), ← hacc, ← State.digest_appendBytes P (bs.drop 8) _ htcnt htbuf,
      ← State.appendBytes_append, List.take_append_drop]
termination_by bs.length
decreasing_by rw [List.length_drop]; omega

/-! ### The call hash -/

theorem State.appendByte_respond (P : Params) (s : State) (b : Byte) (r : Response) :
    (s.respond r).appendByte P b = (s.appendByte P b).respond r := by
  by_cases hroom : s.tcnt.toNat < 7
  · rw [State.appendByte_waits P s b hroom, State.appendByte_waits P (s.respond r) b hroom]
    rfl
  · rw [State.appendByte_completes P s b hroom, State.appendByte_completes P (s.respond r) b hroom]
    rfl

theorem State.appendBytes_respond (P : Params) (bs : List Byte) (s : State) (r : Response) :
    (s.respond r).appendBytes P bs = (s.appendBytes P bs).respond r := by
  induction bs generalizing s with
  | nil => rfl
  | cons b bs ih => rw [State.appendBytes_cons, State.appendBytes_cons, State.appendByte_respond, ih]

/-- HASH_DATA writes append the bytes they carry, one after the other; the answer is all that tells how they were
split (41_hasher.md R98). -/
theorem afterAll_dataWrites {ts : List Txn} (h : ∀ t ∈ ts, isDataWrite (decodeTxn t) = true) (s : State) :
    ∃ r, afterAll ts s = (s.appendBytes Config.inst (ts.flatMap fun t => appended (decodeTxn t))).respond r := by
  induction ts generalizing s with
  | nil => exact ⟨s.resp, rfl⟩
  | cons t ts ih =>
    rw [List.forall_mem_cons] at h
    obtain ⟨hfirst, hrest⟩ := h
    obtain ⟨r, hr⟩ := ih hrest (after (decodeTxn t) s)
    refine ⟨r, ?_⟩
    rw [afterAll_cons, hr, after_of_dataWrite hfirst, State.accept, State.appendBytes_respond, List.flatMap_cons,
      State.appendBytes_append]
    rfl

/-- `s` after the seed and the length were written and START began a hash with them (30_encoding.md R66). -/
def State.hashStarted (s : State) (seed len : Word) : State :=
  (((s.setHashSeed seed).setHashLen len).startHash Config.inst).accept

theorem afterAll_hstartTxns (seed len : Word) (s : State) :
    afterAll (hstartTxns seed len) s = s.hashStarted seed len := rfl

theorem after_readHashDigest (s : State) :
    after (decodeTxn (readReg .hashDigest .b8)) s = s.answer64 (s.digest Config.inst) := rfl

/-- Bytes written to an empty tail, in any sizes, and the digest read: the answer, the length match and the flag. -/
theorem afterAll_writes_readHashDigest {s : State} (hcnt : s.tcnt = 0) (hbuf : s.tbuf = 0) (hcount : s.count = 0)
    {bs : List Byte} {ws : List Txn} (hws : carriedBy bs ws) :
    (afterAll (ws ++ [readReg .hashDigest .b8]) s).resp = .data (hashFrom Config.inst s.acc bs) ∧
      (afterAll (ws ++ [readReg .hashDigest .b8]) s).lenMatch = (BitVec.ofNat 64 bs.length == s.hashLen) ∧
      (afterAll (ws ++ [readReg .hashDigest .b8]) s).accerr = s.accerr := by
  obtain ⟨hwrites, hbytes⟩ := hws.appends
  obtain ⟨r, hr⟩ := afterAll_dataWrites hwrites s
  have hframe := State.appendBytes_frame Config.inst bs s
  rw [afterAll_append, hr, hbytes, afterAll_cons, afterAll_nil, after_readHashDigest]
  refine ⟨?_, ?_, hframe.accerr⟩
  · exact congrArg Response.data (State.digest_appendBytes Config.inst bs s hcnt hbuf)
  · show ((s.appendBytes Config.inst bs).count == (s.appendBytes Config.inst bs).hashLen) = _
    rw [State.appendBytes_count, hframe.hashLen, hcount, BitVec.ofNat_eq_ofNat, BitVec.zero_add]

/-- Any sequence that is the call ends with the digest, a matching length and the flag as it was. -/
theorem runTxns_hashCall {s : State} {seed : Word} {d : List Byte} {ts : List Txn} (hreset : s.inReset = false)
    (hcall : (SourceCall.hashData d seed).isTransactions ts) :
    ∃ u, runTxns ts s = .next u ∧
      u.resp = .data (hash Config.inst d seed) ∧ u.lenMatch = true ∧ u.accerr = s.accerr := by
  obtain ⟨ws, hws, rfl⟩ := hcall
  refine ⟨_, runTxns_eq _ s hreset, ?_⟩
  rw [List.append_assoc, afterAll_append, afterAll_hstartTxns]
  obtain ⟨hresp, hmatch, haccerr⟩ :=
    afterAll_writes_readHashDigest (s := s.hashStarted seed (BitVec.ofNat 64 d.length)) rfl rfl rfl hws
  exact ⟨hresp, hmatch.trans (beq_self_eq_true _), haccerr⟩

/-- Settles O48: every sequence that is the call, and that of the pseudo-instruction, which is one of them. -/
theorem hashCallReturnsTheDigest : Obligations.HashCallReturnsTheDigest := by
  intro s seed d hreset
  exact ⟨fun ts hcall => runTxns_hashCall hreset hcall,
    runTxns_hashCall hreset ⟨hwriteTxns d, carriedBy_hwriteTxns d, rfl⟩⟩

end Sys2Proof.Machine

/-! PROOFS. The mixer (spec/40_mixer.md): its steps bit by bit, the inputs a first rotation does not tell apart, the
outputs a last rotation allows, and which programs are one to one. -/

namespace Sys2Proof.Machine

/-! ### The three kinds of step -/

theorem mixStep_xrr (r : Nat) (y : Word) : mixStep (.xrr r) y = y ^^^ rotr64 y r := rfl

theorem mixStep_xsr (r : Nat) (y : Word) : mixStep (.xsr r) y = y ^^^ (y >>> (r % 64)) := rfl

theorem mixStep_mul (c y : Word) : mixStep (.mul c) y = y * c := rfl

theorem mixStep_xrr_getLsbD (r : Nat) (y : Word) {i : Nat} (hi : i < 64) :
    (mixStep (.xrr r) y).getLsbD i = (y.getLsbD i ^^ y.getLsbD ((i + r) % 64)) := by
  rw [mixStep_xrr, BitVec.getLsbD_xor, rotr64_getLsbD y r i hi]

theorem mixStep_xsr_getLsbD (r : Nat) (y : Word) (i : Nat) :
    (mixStep (.xsr r) y).getLsbD i = (y.getLsbD i ^^ y.getLsbD (i + r % 64)) := by
  rw [mixStep_xsr, BitVec.getLsbD_xor, BitVec.getLsbD_ushiftRight, Nat.add_comm]

/-- A rotation takes its amount modulo 64 (00_scope.md R16). -/
@[simp] theorem rotr64_mod (a : Word) (r : Nat) : rotr64 a (r % 64) = rotr64 a r := by
  simp only [rotr64, Nat.mod_mod]

/-- A rotation step gives 0 exactly on the words that the rotation keeps (40_mixer.md R76). -/
theorem mixStep_xrr_eq_zero_iff (r : Nat) (x : Word) : mixStep (.xrr r) x = 0 ↔ rotr64 x r = x := by
  rw [mixStep_xrr, eq_comm (a := rotr64 x r)]
  exact BitVec.xor_eq_zero_iff

theorem mixStep_xrr_of_mod_eq_zero {r : Nat} (h : r % 64 = 0) (y : Word) : mixStep (.xrr r) y = 0 :=
  (mixStep_xrr_eq_zero_iff r y).2 (if_pos h)

theorem mixStep_xsr_of_mod_eq_zero {r : Nat} (h : r % 64 = 0) (y : Word) : mixStep (.xsr r) y = 0 := by
  rw [mixStep_xsr, h, BitVec.ushiftRight_zero, BitVec.xor_self]
  rfl

theorem conforming_xrr_of_mod_eq_zero {r : Nat} (h : r % 64 = 0) : MixStep.conforming (.xrr r) = false := by
  have outside : ¬ (1 ≤ r ∧ r ≤ 63) := by omega
  simpa [MixStep.conforming] using outside

/-- Settles O26: the bits of each kind of step, and the amount 0. -/
theorem mixerStepsActAsDefined : Obligations.MixerStepsActAsDefined := by
  intro r c y
  exact ⟨fun i hi => mixStep_xrr_getLsbD r y hi, fun i _ => mixStep_xsr_getLsbD r y i, BitVec.toNat_mul y c,
    fun h => ⟨mixStep_xrr_of_mod_eq_zero h y, mixStep_xsr_of_mod_eq_zero h y, conforming_xrr_of_mod_eq_zero h, rfl⟩⟩

/-- Settles O27: the fold is the definition; the model's rotation is the library's. -/
theorem mixerAppliesItsStepsInOrder : Obligations.MixerAppliesItsStepsInOrder := by
  refine ⟨fun P x st l => rfl, fun P r1 r2 r3 c1 c2 x => ?_⟩
  simp only [mix_eq, MixProg.reference, mixSteps_cons, mixSteps_nil, mixStep_xrr, mixStep_mul, rotr64_eq_rotateRight]

/-- Settles O33: each transaction's meaning, as the dispatch gives it. -/
theorem mixerTransactionResults : Obligations.MixerTransactionResults :=
  fun s v => ⟨exec_wrMixIn v s, exec_rdMixIn s, exec_rdMixOut s⟩

/-! ### Inputs that mix to 0 -/

@[simp] theorem mixStep_zero (st : MixStep) : mixStep st 0 = 0 := by
  cases st with
  | xrr r => exact (mixStep_xrr_eq_zero_iff r 0).2 (by rw [rotr64_eq_rotateRight, BitVec.rotateRight_def]; simp)
  | xsr r => rw [mixStep_xsr]; simp
  | mul c => rw [mixStep_mul]; simp

@[simp] theorem mixSteps_zero (l : List MixStep) : mixSteps l 0 = 0 := by
  induction l with
  | nil => rfl
  | cons st l ih => rw [mixSteps_cons, mixStep_zero, ih]

theorem mix_zero (P : Params) : mix P 0 = 0 :=
  mixSteps_zero P.mixProg.steps

/-- Settles O28: step by step. -/
theorem mixOfZeroIsZero : Obligations.MixOfZeroIsZero :=
  ⟨mixStep_zero, mix_zero⟩

/-- Settles O29: the first step already forgets the complement, and all ones is the complement of 0. -/
theorem mixIgnoresComplement : Obligations.MixIgnoresComplement := by
  intro P r hfirst
  have hnot (x : Word) : mix P (~~~x) = mix P x := by
    rw [mix_eq, mix_eq, hfirst, mixStep_xrr_not]
  exact ⟨hnot, (hnot 0).trans (mix_zero P)⟩

/-- With XRR(r) first, a word that the rotation keeps mixes to 0. -/
theorem mix_eq_zero_of_rotr64 {P : Params} {r : Nat} (hfirst : P.mixProg.first = .xrr r) {x : Word}
    (hx : rotr64 x r = x) : mix P x = 0 := by
  rw [mix_eq, hfirst, (mixStep_xrr_eq_zero_iff r x).2 hx, mixSteps_zero]

/-! ### The words a rotation keeps -/

/-- A rotation keeps a word exactly when every bit is the one `r` places on. -/
theorem rotr64_eq_self_iff (r : Nat) (x : Word) :
    rotr64 x r = x ↔ ∀ i, i < 64 → x.getLsbD ((i + r) % 64) = x.getLsbD i := by
  refine ⟨fun h i hi => ?_, fun h => BitVec.eq_of_getLsbD_eq fun i hi => ?_⟩
  · rw [← rotr64_getLsbD x r i hi, h]
  · rw [rotr64_getLsbD x r i hi, h i hi]

/-- From bit 0, the bits of a kept word agree all along the multiples of `r`. -/
theorem getLsbD_mul_mod_of_rotr64 {r : Nat} {x : Word} (h : rotr64 x r = x) (k : Nat) :
    x.getLsbD (r * k % 64) = x.getLsbD 0 := by
  induction k with
  | zero => rfl
  | succ k ih =>
    have hstep := (rotr64_eq_self_iff r x).1 h (r * k % 64) (Nat.mod_lt _ (by decide))
    rw [Nat.mod_add_mod] at hstep
    rw [Nat.mul_succ, hstep, ih]

/-- For `r` prime to 64 the multiples of `r` reach every bit, so a kept word has all its bits alike. -/
theorem getLsbD_eq_zero_of_rotr64 {r : Nat} (hr : Nat.gcd r 64 = 1) {x : Word} (h : rotr64 x r = x) {i : Nat}
    (hi : i < 64) : x.getLsbD i = x.getLsbD 0 := by
  obtain ⟨k, -, hk⟩ := Nat.exists_mul_mod_eq_of_coprime i hr (by decide)
  rw [← getLsbD_mul_mod_of_rotr64 h k, hk, Nat.mod_eq_of_lt hi]

/-- Every rotation keeps the all-ones word. -/
theorem rotr64_allOnes (r : Nat) : rotr64 (BitVec.allOnes 64) r = BitVec.allOnes 64 := by
  refine (rotr64_eq_self_iff r _).2 fun i hi => ?_
  rw [BitVec.getLsbD_allOnes, BitVec.getLsbD_allOnes, decide_eq_true hi, decide_eq_true (Nat.mod_lt _ (by decide))]

theorem rotr64_eq_self_iff_of_coprime {r : Nat} (hr : Nat.gcd r 64 = 1) (x : Word) :
    rotr64 x r = x ↔ x = 0 ∨ x = BitVec.allOnes 64 := by
  refine ⟨fun h => ?_, ?_⟩
  · cases h0 : x.getLsbD 0 with
    | false =>
      left
      refine BitVec.eq_of_getLsbD_eq fun i hi => ?_
      rw [getLsbD_eq_zero_of_rotr64 hr h hi, h0]
      simp
    | true =>
      right
      refine BitVec.eq_of_getLsbD_eq fun i hi => ?_
      rw [getLsbD_eq_zero_of_rotr64 hr h hi, h0, BitVec.getLsbD_allOnes, decide_eq_true hi]
  · rintro (rfl | rfl)
    · exact (mixStep_xrr_eq_zero_iff r 0).1 (mixStep_zero _)
    · exact rotr64_allOnes r

/-- Rotation by half the width keeps the words with equal halves. -/
theorem rotr64_half_eq_self_iff (x : Word) :
    rotr64 x 32 = x ↔ BitVec.extractLsb' 0 32 x = BitVec.extractLsb' 32 32 x := by
  have halves : BitVec.extractLsb' 0 32 x = BitVec.extractLsb' 32 32 x ↔
      ∀ i, i < 32 → x.getLsbD i = x.getLsbD (32 + i) := by
    refine ⟨fun h i hi => ?_, fun h => BitVec.eq_of_getLsbD_eq fun i hi => ?_⟩
    · simpa [hi] using congrArg (BitVec.getLsbD · i) h
    · simpa [hi] using h i hi
  rw [halves, rotr64_eq_self_iff]
  refine ⟨fun h i hi => ?_, fun h i hi => ?_⟩
  · rw [← h i (by omega), show (i + 32) % 64 = 32 + i by omega]
  · by_cases hlow : i < 32
    · rw [h i hlow, show (i + 32) % 64 = 32 + i by omega]
    · rw [h ((i + 32) % 64) (by omega), show 32 + (i + 32) % 64 = i by omega]

/-- Settles O30: what the rotation keeps, for a general amount, one prime to 64, and 32. -/
theorem rotationFixedPointsMixToZero : Obligations.RotationFixedPointsMixToZero := by
  refine ⟨fun P r hfirst => ⟨fun x hx => ?_, ?_⟩, fun r x hr => ?_, rotr64_half_eq_self_iff⟩
  · rw [rotr64_mod] at hx
    exact mix_eq_zero_of_rotr64 hfirst hx
  · rintro rfl
    exact mix_eq_zero_of_rotr64 hfirst ((rotr64_half_eq_self_iff _).2 (by decide))
  · rw [rotr64_mod]
    exact rotr64_eq_self_iff_of_coprime hr x

/-! ### Outputs of a last rotation -/

/-- Counting the places where exactly one of two tests holds: those where both hold are counted in each. -/
theorem countP_xor_add (p q : Nat → Bool) (l : List Nat) :
    l.countP (fun i => p i ^^ q i) + 2 * l.countP (fun i => p i && q i) = l.countP p + l.countP q := by
  induction l with
  | nil => rfl
  | cons i l ih =>
    simp only [List.countP_cons]
    cases p i <;> cases q i <;> simp <;> omega

theorem popcount_xor_add (a b : Word) : popcount (a ^^^ b) + 2 * popcount (a &&& b) = popcount a + popcount b := by
  simp only [popcount, BitVec.getLsbD_xor, BitVec.getLsbD_and]
  exact countP_xor_add a.getLsbD b.getLsbD (List.range 64)

/-- A rotation permutes the bit positions. -/
theorem map_add_mod_perm_range (r : Nat) : ((List.range 64).map fun i => (i + r) % 64).Perm (List.range 64) := by
  have hnodup : ((List.range 64).map fun i => (i + r) % 64).Nodup := by
    refine List.nodup_range.map_on fun i hi j hj h => ?_
    rw [List.mem_range] at hi hj
    omega
  refine (List.subperm_of_subset hnodup fun j hj => ?_).perm_of_length_le (by simp)
  obtain ⟨i, -, rfl⟩ := List.mem_map.1 hj
  exact List.mem_range.2 (Nat.mod_lt _ (by decide))

theorem popcount_rotr64 (a : Word) (r : Nat) : popcount (rotr64 a r) = popcount a := by
  calc popcount (rotr64 a r)
      = (List.range 64).countP (fun i => a.getLsbD ((i + r) % 64)) :=
        List.countP_congr fun i hi => by rw [rotr64_getLsbD a r i (List.mem_range.1 hi)]
    _ = ((List.range 64).map fun i => (i + r) % 64).countP (fun i => a.getLsbD i) := by
        rw [List.countP_map]; rfl
    _ = popcount a := (map_add_mod_perm_range r).countP_eq _

/-- A word and its rotation have equally many one bits, so their xor has an even number (40_mixer.md R77). -/
theorem popcount_mixStep_xrr (r : Nat) (y : Word) : popcount (mixStep (.xrr r) y) % 2 = 0 := by
  have hsum := popcount_xor_add y (rotr64 y r)
  rw [popcount_rotr64] at hsum
  rw [mixStep_xrr]
  omega

/-- Rotating twice by 32 is the identity, so rotation by 32 keeps what XRR(32) gives. -/
theorem rotr64_half_mixStep (y : Word) : rotr64 (mixStep (.xrr 32) y) 32 = mixStep (.xrr 32) y := by
  refine (rotr64_eq_self_iff 32 _).2 fun i hi => ?_
  rw [mixStep_xrr_getLsbD 32 y hi, mixStep_xrr_getLsbD 32 y (Nat.mod_lt _ (by decide)),
    show ((i + 32) % 64 + 32) % 64 = i by omega, Bool.xor_comm]

/-- With a last step `st`, every output is an output of `st`. -/
theorem exists_mix_eq_mixStep {P : Params} {st : MixStep} (h : P.mixProg.steps.getLast? = some st) (x : Word) :
    ∃ y, mix P x = mixStep st y := by
  obtain ⟨l, hl⟩ := List.getLast?_eq_some_iff.1 h
  exact ⟨mixSteps l x, by rw [mix, hl, mixSteps_append, mixSteps_cons, mixSteps_nil]⟩

/-- Settles O31: every output is one of the rotation step. -/
theorem lastRotationMakesPopcountEven : Obligations.LastRotationMakesPopcountEven := by
  intro P r hlast
  have heven (x : Word) : popcount (mix P x) % 2 = 0 := by
    obtain ⟨y, hy⟩ := exists_mix_eq_mixStep hlast x
    rw [hy, popcount_mixStep_xrr]
  have hone (x : Word) : mix P x ≠ 1 := fun h => absurd (h ▸ heven x) (by decide)
  refine ⟨heven, hone, fun hsurj => ?_, ?_⟩
  · obtain ⟨x, hx⟩ := hsurj 1
    exact hone x hx
  · rintro rfl x
    obtain ⟨y, hy⟩ := exists_mix_eq_mixStep hlast x
    rw [hy, ← rotr64_half_eq_self_iff, rotr64_half_mixStep]

/-! ### Which mixers are one to one -/

/-- A word that is its own right shift by at least 1 is 0. -/
theorem eq_zero_of_ushiftRight_eq {k : Nat} (hk : 1 ≤ k) {z : Word} (h : z >>> k = z) : z = 0 := by
  have hdiv : z.toNat / 2 ^ k = z.toNat := by
    rw [← Nat.shiftRight_eq_div_pow, ← BitVec.toNat_ushiftRight, h]
  have hpow : 1 < 2 ^ k := Nat.one_lt_two_pow (by omega)
  rcases Nat.div_eq_self.1 hdiv with hz | hz
  · exact BitVec.eq_of_toNat_eq hz
  · omega

theorem mixStep_xsr_xor (r : Nat) (x y : Word) :
    mixStep (.xsr r) (x ^^^ y) = mixStep (.xsr r) x ^^^ mixStep (.xsr r) y := by
  simp only [mixStep_xsr, BitVec.ushiftRight_xor_distrib]
  ac_rfl

/-- By linearity, two words with one image differ by a word that is its own shift, which is 0. -/
theorem mixStep_xsr_injective {r : Nat} (hr : 1 ≤ r % 64) : Function.Injective (mixStep (.xsr r)) := by
  intro x y h
  have hzero : mixStep (.xsr r) (x ^^^ y) = 0 := by
    rw [mixStep_xsr_xor, h]
    exact BitVec.xor_self
  rw [mixStep_xsr] at hzero
  exact BitVec.xor_eq_zero_iff.1 (eq_zero_of_ushiftRight_eq hr (BitVec.xor_eq_zero_iff.1 hzero).symm)

/-- An odd constant can be cancelled modulo 2^64. -/
theorem mixStep_mul_injective {c : Word} (hc : c.getLsbD 0 = true) : Function.Injective (mixStep (.mul c)) := by
  have hodd : c.toNat % 2 = 1 := by simpa [BitVec.getLsbD] using hc
  have hcoprime : Nat.Coprime (2 ^ 64) c.toNat := (Nat.coprime_two_left.2 (Nat.odd_iff.2 hodd)).pow_left 64
  intro x y h
  rw [mixStep_mul, mixStep_mul] at h
  have hmod : x.toNat * c.toNat ≡ y.toNat * c.toNat [MOD 2 ^ 64] := by
    rw [Nat.ModEq, ← BitVec.toNat_mul, ← BitVec.toNat_mul, h]
  exact BitVec.eq_of_toNat_eq ((hmod.cancel_right_of_coprime hcoprime).eq_of_lt_of_lt x.isLt y.isLt)

theorem mixSteps_injective {l : List MixStep} (h : ∀ st ∈ l, Function.Injective (mixStep st)) :
    Function.Injective (mixSteps l) := by
  induction l with
  | nil => exact fun x y hxy => hxy
  | cons st l ih =>
    rw [List.forall_mem_cons] at h
    obtain ⟨hfirst, hrest⟩ := h
    exact (ih hrest).comp hfirst

/-- If the steps before a rotation are one to one, they reach both 0 and all ones, which the rotation joins; if they
are not, two inputs were joined before it (40_mixer.md R78). -/
theorem mixSteps_not_injective_of_xrr {l : List MixStep} {r : Nat} (h : MixStep.xrr r ∈ l) :
    ¬ Function.Injective (mixSteps l) := by
  intro hinj
  obtain ⟨k, m, rfl⟩ := List.append_of_mem h
  have hsplit : mixSteps (k ++ .xrr r :: m) = (mixSteps m ∘ mixStep (.xrr r)) ∘ mixSteps k :=
    funext fun x => by rw [mixSteps_append, mixSteps_cons]; rfl
  rw [hsplit] at hinj
  have hsurj : Function.Surjective (mixSteps k) := Finite.surjective_of_injective hinj.of_comp
  obtain ⟨x, hx⟩ := hsurj 0
  obtain ⟨y, hy⟩ := hsurj (~~~0)
  have hxy : y = x := hinj (by simp only [Function.comp_apply, hx, hy, mixStep_xrr_not])
  rw [hxy, hx] at hy
  exact absurd hy (by decide)

/-- Settles O32: a rotation joins two inputs; the other steps, one to one, compose, and words are finitely many. -/
theorem rotationMixerIsNotInjective : Obligations.RotationMixerIsNotInjective := by
  refine ⟨fun P r h => mixSteps_not_injective_of_xrr h, fun P h => Finite.injective_iff_bijective.1 ?_⟩
  refine mixSteps_injective fun st hst => ?_
  rcases h st hst with ⟨r, rfl, hlow, hhigh⟩ | ⟨c, rfl, hc⟩
  · exact mixStep_xsr_injective (by omega)
  · exact mixStep_mul_injective hc

end Sys2Proof.Machine

/-! PROOFS. The Hasher (spec/41_hasher.md): the byte-append step and the 8-byte write, the plain registers and the tail,
the engine against the digest function, streaming, complemented chunks, and save and restore. -/

namespace Sys2Proof.Machine

/-! ### Bytes of words and of the tail -/

/-- Byte `i` of a word is the word shifted down by `i` bytes and cut to eight bits. -/
theorem byteAt_eq_setWidth (v : Word) (i : Nat) : byteAt v i = (v >>> (8 * i)).setWidth 8 := by
  ext j hj
  simp [← BitVec.getLsbD_eq_getElem, hj]

theorem lowBytes_succ (n : Nat) (v : Word) : lowBytes (n + 1) v = lowBytes n v ++ [byteAt v n] := by
  rw [lowBytes, List.range_succ, List.map_append]
  rfl

/-- The low bytes of a word, cut after the first `k`. -/
theorem lowBytes_add (k n : Nat) (v : Word) : lowBytes (k + n) v = lowBytes k v ++ lowBytes n (v >>> (8 * k)) := by
  have hshift (i : Nat) : byteAt (v >>> (8 * k)) i = byteAt v (k + i) := by
    rw [byteAt_eq_setWidth, byteAt_eq_setWidth, ← BitVec.shiftRight_add, ← Nat.mul_add]
  simp only [lowBytes, List.range_add, List.map_append, List.map_map, Function.comp_def, ← hshift]

/-- A word whose bits from `8 * n` on are zero is kept by cutting it there. -/
theorem keepBytes_eq_self {n : Nat} {v : Word} (h : ∀ j, 8 * n ≤ j → v.getLsbD j = false) : keepBytes n v = v := by
  ext j hj
  rw [← BitVec.getLsbD_eq_getElem, ← BitVec.getLsbD_eq_getElem, keepBytes_getLsbD]
  by_cases hlow : j < 8 * n
  · simp [hlow]
  · simp [h j (by omega)]

/-- Shifted up by `n` bytes, a word keeps nothing but its low `8 - n` bytes. -/
theorem le_lowBytes_shiftLeft {n k : Nat} (h : n + k = 8) (v : Word) :
    le (lowBytes k v) <<< (8 * n) = v <<< (8 * n) := by
  rw [le_lowBytes]
  ext j hj
  rw [← BitVec.getLsbD_eq_getElem, ← BitVec.getLsbD_eq_getElem, BitVec.getLsbD_shiftLeft, BitVec.getLsbD_shiftLeft,
    keepBytes_getLsbD]
  by_cases hlow : j < 8 * n
  · simp [hlow]
  · simp [show j - 8 * n < 8 * k by omega]

/-- Shifted down by `k` bytes, a word is its high `8 - k` bytes. -/
theorem le_lowBytes_shiftRight {n k : Nat} (h : n + k = 8) (v : Word) :
    le (lowBytes n (v >>> (8 * k))) = v >>> (8 * k) := by
  rw [le_lowBytes]
  refine keepBytes_eq_self fun j hj => ?_
  rw [BitVec.getLsbD_ushiftRight, BitVec.getLsbD_of_ge v _ (by omega)]

/-- The tail buffer is its seven bytes. -/
theorem le_lowBytes_zext64 (t : BitVec 56) : le (lowBytes 7 (zext64 t)) = zext64 t := by
  rw [le_lowBytes]
  refine keepBytes_eq_self fun j hj => ?_
  rw [zext64_getLsbD, BitVec.getLsbD_of_ge t j (by omega), Bool.and_false]

/-- Field assignment of one byte of the tail, byte by byte. -/
theorem byteAt_putByte (t : BitVec 56) (i : Nat) (b : Byte) {k : Nat} (hk : k < 7) :
    byteAt (zext64 (putByte t i b)) k = if k = i then b else byteAt (zext64 t) k := by
  ext j hj
  rw [← BitVec.getLsbD_eq_getElem, ← BitVec.getLsbD_eq_getElem, byteAt_getLsbD, zext64_getLsbD,
    putByte_getLsbD _ _ _ _ (by omega)]
  by_cases hki : k = i
  · subst hki
    simp [hj, show 8 * k + j < 64 by omega]
  · rw [if_neg (by omega), if_neg hki, byteAt_getLsbD, zext64_getLsbD]

/-- The tail buffer cut to its low bytes, byte by byte. -/
theorem byteAt_keepTail (n : Nat) (t : BitVec 56) (k : Nat) :
    byteAt (zext64 (keepTail n t)) k = if k < n then byteAt (zext64 t) k else 0 := by
  ext j hj
  rw [← BitVec.getLsbD_eq_getElem, ← BitVec.getLsbD_eq_getElem, byteAt_getLsbD, zext64_getLsbD, keepTail_getLsbD]
  by_cases hkn : k < n
  · rw [if_pos hkn, byteAt_getLsbD, zext64_getLsbD]
    simp [show 8 * k + j < 8 * n by omega]
  · simp [hkn, show ¬ 8 * k + j < 8 * n by omega]

/-- A tail buffer with nothing at or above byte `TCNT` is kept by cutting it there. -/
theorem State.keepTail_tbuf_of_tailClean {s : State} (h : s.tailClean = true) :
    keepTail s.tcnt.toNat s.tbuf = s.tbuf := by
  ext j hj
  rw [← BitVec.getLsbD_eq_getElem, ← BitVec.getLsbD_eq_getElem, keepTail_getLsbD]
  by_cases hpending : j < 8 * s.tcnt.toNat
  · simp [hpending]
  · simp [s.tailClean_iff.mp h j (by omega)]

/-! ### The byte-append step -/

/-- Settles O35: the byte waits at its position, or it completes the chunk of the seven before it. -/
theorem appendByteActsAsDefined : Obligations.AppendByteActsAsDefined := by
  intro P s b
  refine ⟨fun hroom => ⟨putByte s.tbuf s.tcnt.toNat b, State.appendByte_waits P s b hroom, ?_, fun i hi hne => ?_⟩,
    fun hfull => ?_, State.appendByte_tailClean P b⟩
  · rw [byteAt_putByte _ _ _ hroom, if_pos rfl]
  · rw [byteAt_putByte _ _ _ hi, if_neg hne]
  · rw [State.appendByte_completes P s b (by omega),
      chunkWord_eq_le b (lowBytes_length 7 _) (le_lowBytes_zext64 s.tbuf).symm]
    rfl

/-! ### START, the data writes and the plain registers -/

theorem exec_wrHashCtrl_start {v : Word} (hbit : v.getLsbD 0 = true) (s : State) :
    exec (.wrHashCtrl v) s = .next (s.startHash Config.inst).accept := by
  rw [exec_wrHashCtrl, if_pos hbit]

/-- Settles O36: by the value of bit 0. -/
theorem startResults : Obligations.StartResults := by
  refine fun s v => ⟨exec_wrHashCtrl_start (s := s), fun hbit => ?_⟩
  rw [exec_wrHashCtrl, hbit]
  rfl

/-- Settles O37: the low bytes of the written word, each as the shifted word cut to a byte. -/
theorem hashDataResults : Obligations.HashDataResults := by
  intro s v
  have hbytes (n : Nat) : lowBytes n v = (List.range n).map fun i => (v >>> (8 * i)).setWidth 8 :=
    List.map_congr_left fun i _ => byteAt_eq_setWidth v i
  refine ⟨?_, ?_, ?_, ?_⟩
  · rw [exec_wrHashData1, hbytes]; rfl
  · rw [exec_wrHashData2, hbytes]; rfl
  · rw [exec_wrHashData4, hbytes]; rfl
  · rw [exec_wrHashData8, hbytes]; rfl

/-- Settles O39: each transaction's meaning, as the dispatch gives it. -/
theorem hasherRegisterResults : Obligations.HasherRegisterResults :=
  fun s v => ⟨exec_rdHashDigest s, exec_wrHashSeed v s, exec_rdHashSeed s, exec_wrHashLen v s, exec_rdHashLen s,
    exec_wrHashAcc v s, exec_rdHashAcc s, exec_wrHashCount v s, exec_rdHashCount s⟩

/-! ### The 8-byte write -/

/-- Appending changes the accumulator, the tail and the count only. -/
theorem AppendFrame.eq {s t : State} (h : AppendFrame s t) :
    t = { s with acc := t.acc, tbuf := t.tbuf, tcnt := t.tcnt, count := t.count } := by
  obtain ⟨hmix, hseed, hlen, hctr, hkey, herr, hreset, hinputs, hresp, hfree⟩ := h
  simp only [← hmix, ← hseed, ← hlen, ← hctr, ← hkey, ← herr, ← hreset, ← hinputs, ← hresp, ← hfree]

theorem State.appendBytes_tcnt (P : Params) (bs : List Byte) (s : State) :
    (s.appendBytes P bs).tcnt = s.tcnt + BitVec.ofNat 3 bs.length := by
  induction bs generalizing s with
  | nil => simp
  | cons b bs ih =>
    rw [State.appendBytes_cons, ih, State.appendByte_tcnt, List.length_cons, BitVec.ofNat_add]
    ac_rfl

/-- The seven bytes of a full tail and the byte that completes the chunk, when the upper ones of the seven are new. -/
theorem chunkWord_eq_or {t tb : BitVec 56} {n : Nat} {bs : List Byte} (b : Byte) (h : n + bs.length = 7)
    (htb : ∀ j < 56, tb.getLsbD j =
      if j < 8 * n then t.getLsbD j else ((bs[j / 8 - n]?).getD 0).getLsbD (j % 8)) :
    chunkWord tb b = zext64 (keepTail n t) ||| (le (bs ++ [b]) <<< (8 * n)) := by
  ext j hj
  rw [← BitVec.getLsbD_eq_getElem, ← BitVec.getLsbD_eq_getElem, chunkWord_getLsbD _ _ _ hj, BitVec.getLsbD_or,
    zext64_getLsbD, keepTail_getLsbD, BitVec.getLsbD_shiftLeft]
  by_cases hold : j < 8 * n
  · rw [if_pos (by omega), htb j (by omega), if_pos hold]
    simp [hj, hold]
  · rw [le_getLsbD _ _ (by omega), show (j - 8 * n) / 8 = j / 8 - n by omega, show (j - 8 * n) % 8 = j % 8 by omega]
    by_cases hnew : j < 56
    · rw [if_pos hnew, htb j hnew, if_neg hold, List.getElem?_append_left (by omega)]
      simp [hj, hold]
    · rw [if_neg hnew, show j / 8 - n = bs.length by omega, List.getElem?_concat_length,
        show j % 8 = j - 56 by omega]
      simp [hj, hold]

/-- Bytes that fill the tail up to the end of a chunk: the chunk is the pending bytes and, above them, the new ones. -/
theorem State.appendBytes_completes (P : Params) {s : State} {c : List Byte} (h : s.tcnt.toNat + c.length = 8) :
    (s.appendBytes P c).acc =
        mix P (s.acc ^^^ (zext64 (keepTail s.tcnt.toNat s.tbuf) ||| (le c <<< (8 * s.tcnt.toNat)))) ∧
      (s.appendBytes P c).tcnt = 0 ∧ (s.appendBytes P c).tbuf = 0 := by
  obtain ⟨bs, b, rfl⟩ := List.eq_nil_or_concat' c |>.resolve_left (by
    rintro rfl
    exact absurd h s.tcnt.isLt.ne)
  have hlen : s.tcnt.toNat + bs.length = 7 := by
    rw [List.length_append, List.length_singleton] at h
    omega
  obtain ⟨tb, heq, htb⟩ := State.appendBytes_waits P bs s hlen.le
  have hfull : ¬ (s.appendBytes P bs).tcnt.toNat < 7 := by
    rw [State.appendBytes_tcnt, BitVec.toNat_add, BitVec.toNat_ofNat]
    omega
  have hchunk := chunkWord_eq_or (t := s.tbuf) b hlen fun j hj => by
    have hbelow : (j < 8 * s.tcnt.toNat ∨ 8 * (s.tcnt.toNat + bs.length) ≤ j) ↔ j < 8 * s.tcnt.toNat := by omega
    rw [htb j hj, if_congr hbelow rfl rfl]
  rw [State.appendBytes_append, State.appendBytes_cons, State.appendBytes_nil,
    State.appendByte_completes P _ b hfull, ← hchunk, heq]
  exact ⟨rfl, rfl, rfl⟩

/-- Eight bytes appended to any tail: one chunk of the pending bytes and the first new ones, and the last new ones left
pending (41_hasher.md R86). -/
theorem State.appendBytes_word (P : Params) (s : State) (v : Word) :
    s.appendBytes P (lowBytes 8 v) =
      { s with
        acc := mix P (s.acc ^^^ (zext64 (keepTail s.tcnt.toNat s.tbuf) ||| (v <<< (8 * s.tcnt.toNat))))
        tbuf := (v >>> (64 - 8 * s.tcnt.toNat)).setWidth 56
        count := s.count + 8 } := by
  obtain ⟨k, hk⟩ : ∃ k, s.tcnt.toNat + k = 8 := ⟨8 - s.tcnt.toNat, by omega⟩
  have hsplit : lowBytes 8 v = lowBytes k v ++ lowBytes s.tcnt.toNat (v >>> (8 * k)) := by
    rw [← lowBytes_add, Nat.add_comm, hk]
  obtain ⟨hacc, htcnt, htbuf⟩ := State.appendBytes_completes P (s := s) (c := lowBytes k v)
    (by rw [lowBytes_length, hk])
  obtain ⟨hacc', -, htbuf'⟩ := State.appendBytes_short P (bs := lowBytes s.tcnt.toNat (v >>> (8 * k))) htcnt htbuf
    (by rw [lowBytes_length]; omega)
  rw [← State.appendBytes_append, ← hsplit] at hacc' htbuf'
  rw [hacc, le_lowBytes_shiftLeft hk] at hacc'
  have hlast : (s.appendBytes P (lowBytes 8 v)).tbuf = (v >>> (8 * k)).setWidth 56 := by
    rw [← le_lowBytes_shiftRight hk, ← htbuf', zext64, BitVec.setWidth_setWidth_of_le _ (by decide), BitVec.setWidth_eq]
  have hround : s.tcnt + BitVec.ofNat 3 8 = s.tcnt := BitVec.add_zero s.tcnt
  rw [(State.appendBytes_frame P (lowBytes 8 v) s).eq, hacc', hlast, State.appendBytes_tcnt, State.appendBytes_count,
    lowBytes_length, hround, show 64 - 8 * s.tcnt.toNat = 8 * k by omega]
  rfl

@[simp] theorem keepTail_zero (t : BitVec 56) : keepTail 0 t = 0 :=
  BitVec.and_zero

/-- Settles O38: the appended word, whose chunk is the word itself when nothing was pending. -/
theorem eightByteWriteIsOneChunk : Obligations.EightByteWriteIsOneChunk := by
  intro s v
  have hword := exec_wrHashData8 v s
  rw [State.appendBytes_word] at hword
  refine ⟨hword, fun hempty => hword.trans ?_⟩
  have hchunk : zext64 (keepTail 0 s.tbuf) ||| (v <<< 0) = v := by
    rw [keepTail_zero, BitVec.shiftLeft_zero]
    exact BitVec.zero_or
  have hrest : (v >>> 64).setWidth 56 = 0 := by
    rw [BitVec.ushiftRight_eq_zero (by decide)]
    rfl
  have hzero : (0 : BitVec 3).toNat = 0 := rfl
  simp only [hempty, hzero, Nat.mul_zero, Nat.sub_zero, hchunk, hrest]
  rfl

/-! ### The tail register -/

/-- Settles O40: the written tail is cut to the bytes below its count; the read packs three bits and 56. -/
theorem hashTailWriteAndRead : Obligations.HashTailWriteAndRead := by
  intro s v
  refine ⟨keepTail (tailCountOf v).toNat (tailBytesOf v), exec_wrHashTail v s, fun i hi => ?_, exec_rdHashTail s,
    s.writeTail_tailClean v, ?_⟩
  · have hbyte : byteAt (zext64 (tailBytesOf v)) i = byteAt v i := by
      ext j hj
      rw [← BitVec.getLsbD_eq_getElem, ← BitVec.getLsbD_eq_getElem, byteAt_getLsbD, byteAt_getLsbD, zext64_getLsbD,
        tailBytesOf, BitVec.getLsbD_extractLsb', Nat.zero_add]
      simp [show 8 * i + j < 64 by omega, show 8 * i + j < 56 by omega]
    rw [byteAt_keepTail, hbyte]
    rfl
  · have hcnt := s.tcnt.isLt
    have hbuf := s.tbuf.isLt
    rw [BitVec.toNat_or]
    refine Nat.or_lt_two_pow ?_ ?_
    · simp only [BitVec.toNat_shiftLeft, BitVec.toNat_setWidth, Nat.shiftLeft_eq]
      omega
    · rw [BitVec.toNat_setWidth]
      omega

/-! ### The digest of a message -/

/-- Settles O43: a message shorter than a chunk is mixed once, and the packed word of no bytes is 0. -/
theorem emptyMessageDigest : Obligations.EmptyMessageDigest := by
  intro P s
  rw [hash, hashDeclared, hashFrom_short P _ (by decide)]
  exact congrArg (mix P) BitVec.xor_zero

/-- Settles O44: the packed word of a zero byte is 0 too, so only the length tells the two messages apart. -/
theorem lengthSensitivityIsAnObligationOnParameters : Obligations.LengthSensitivityIsAnObligationOnParameters := by
  intro P
  have hzeroByte (s : Word) : hash P [0] s = mix P (P.hashInit s 1) := by
    rw [hash, hashDeclared, hashFrom_short P _ (by decide)]
    exact congrArg (mix P) BitVec.xor_zero
  refine ⟨fun s => ⟨emptyMessageDigest P s, hzeroByte s⟩, ?_⟩
  rw [LenSens]
  exact forall_congr' fun s => by rw [emptyMessageDigest P s, hzeroByte s]

/-- Two messages with the same full chunks in front have the same digest if what follows digests alike from every
accumulator. By induction on the number of those chunks. -/
theorem hashFrom_append_congr (P : Params) {d e : List Byte} (h : ∀ acc, hashFrom P acc d = hashFrom P acc e) (i : Nat)
    {a : List Byte} (ha : a.length = 8 * i) (acc : Word) : hashFrom P acc (a ++ d) = hashFrom P acc (a ++ e) := by
  induction i generalizing a acc with
  | zero => rw [List.eq_nil_of_length_eq_zero ha]; exact h acc
  | succ i ih =>
    have hchunk (l : List Byte) :
        hashFrom P acc (a ++ l) = hashFrom P (mix P (acc ^^^ le (a.take 8))) (a.drop 8 ++ l) := by
      rw [hashFrom_of_chunk P acc (by rw [List.length_append]; omega), List.take_append_of_le_length (by omega),
        List.drop_append_of_le_length (by omega)]
    rw [hchunk, hchunk]
    exact ih (by rw [List.length_drop]; omega) _

/-- The packed word of eight complemented bytes is the complement of their packed word. -/
theorem le_map_complement {c : List Byte} (h : c.length = 8) : le (c.map fun b => b ^^^ 0xFF) = ~~~(le c) := by
  have hones : (fun b : Byte => b ^^^ 0xFF) = fun b => ~~~b := funext fun b => BitVec.xor_allOnes
  ext j hj
  rw [hones, ← BitVec.getLsbD_eq_getElem, ← BitVec.getLsbD_eq_getElem, le_getLsbD _ _ hj, BitVec.getLsbD_not,
    le_getLsbD _ _ hj, List.getElem?_map, List.getElem?_eq_getElem (show j / 8 < c.length by omega)]
  simp [hj, Nat.mod_lt]

/-- With a rotation first, a chunk and its complement mix into the accumulator alike (40_mixer.md R75). -/
theorem hashFrom_complement {P : Params} {r : Nat} (hfirst : P.mixProg.first = .xrr r) {c : List Byte}
    (h : c.length = 8) (e : List Byte) (acc : Word) :
    hashFrom P acc (c.map (fun b => b ^^^ 0xFF) ++ e) = hashFrom P acc (c ++ e) := by
  have hchunk {b : List Byte} (hb : b.length = 8) :
      hashFrom P acc (b ++ e) = hashFrom P (mix P (acc ^^^ le b)) e := by
    rw [hashFrom_of_chunk P acc (by rw [List.length_append]; omega), List.take_left' hb, List.drop_left' hb]
  obtain ⟨hnot, -⟩ := mixIgnoresComplement P r hfirst
  rw [hchunk h, hchunk (by rw [List.length_map, h]), le_map_complement h, ← BitVec.not_xor_right, hnot]

/-- So a chunk of a message, after any full chunks and before any bytes, can be complemented. -/
theorem hash_complement {P : Params} {r : Nat} (hfirst : P.mixProg.first = .xrr r) {i : Nat} {a c : List Byte}
    (ha : a.length = 8 * i) (hc : c.length = 8) (e : List Byte) (s : Word) :
    hash P (a ++ c.map (fun b => b ^^^ 0xFF) ++ e) s = hash P (a ++ c ++ e) s := by
  have hlen : (a ++ c.map (fun b => b ^^^ 0xFF) ++ e).length = (a ++ c ++ e).length := by
    simp only [List.length_append, List.length_map]
  rw [hash, hash, hlen, hashDeclared, hashDeclared, List.append_assoc, List.append_assoc]
  exact hashFrom_append_congr P (hashFrom_complement hfirst hc e) i ha _

/-- Settles O45: any message with a full chunk is the chunks before it, the chunk, and the bytes after it. -/
theorem complementedChunkKeepsTheDigest : Obligations.ComplementedChunkKeepsTheDigest := by
  intro P r hfirst
  refine ⟨fun d s i hi => ?_, fun s => ?_⟩
  · have hbefore : (d.take (8 * i)).length = 8 * i := List.length_take_of_le (by omega)
    have hchunk : ((d.drop (8 * i)).take 8).length = 8 := List.length_take_of_le (by rw [List.length_drop]; omega)
    have hsplit : d.take (8 * i) ++ (d.drop (8 * i)).take 8 ++ d.drop (8 * i + 8) = d := by
      rw [List.append_assoc, ← List.drop_drop, List.take_append_drop, List.take_append_drop]
    rw [hash_complement hfirst hbefore hchunk, hsplit]
  · exact (hash_complement hfirst (i := 0) (a := []) (c := [0x01, 0x02, 0x03, 0x04, 0x05, 0x06, 0x07, 0x08]) rfl rfl
      [] s).symm

/-! ### The engine against the digest function -/

/-- The elements that appending reads and changes agree: the accumulator, the tail and the count. -/
structure SamePending (s t : State) : Prop where
  acc : s.acc = t.acc
  tbuf : s.tbuf = t.tbuf
  tcnt : s.tcnt = t.tcnt
  count : s.count = t.count

theorem SameHasher.pending {s t : State} (h : SameHasher s t) : SamePending s t :=
  ⟨h.acc, h.tbuf, h.tcnt, h.count⟩

theorem SamePending.trans {s t u : State} (h : SamePending s t) (h' : SamePending t u) : SamePending s u :=
  ⟨h.acc.trans h'.acc, h.tbuf.trans h'.tbuf, h.tcnt.trans h'.tcnt, h.count.trans h'.count⟩

theorem SamePending.digest_eq {s t : State} (h : SamePending s t) (P : Params) : s.digest P = t.digest P := by
  rw [State.digest, State.digest, h.acc, h.tbuf]

theorem SamePending.appendByte {s t : State} (h : SamePending s t) (P : Params) (b : Byte) :
    SamePending (s.appendByte P b) (t.appendByte P b) := by
  obtain ⟨hacc, htbuf, htcnt, hcount⟩ := h
  by_cases hroom : s.tcnt.toNat < 7
  · rw [State.appendByte_waits P s b hroom, State.appendByte_waits P t b (htcnt ▸ hroom)]
    constructor <;> simp only [hacc, htbuf, htcnt, hcount]
  · rw [State.appendByte_completes P s b hroom, State.appendByte_completes P t b (htcnt ▸ hroom)]
    constructor <;> simp only [hacc, htbuf, hcount]

theorem SamePending.appendBytes {s t : State} (h : SamePending s t) (P : Params) (bs : List Byte) :
    SamePending (s.appendBytes P bs) (t.appendBytes P bs) := by
  induction bs generalizing s t with
  | nil => exact h
  | cons b bs ih => exact ih (h.appendByte P b)

/-- Only a write of HASH_DATA appends bytes (41_hasher.md R86). -/
theorem appended_eq_nil {i : Instr} (hi : isDataWrite i = false) : appended i = [] := by
  cases i with
  | wrHashData1 v | wrHashData2 v | wrHashData4 v | wrHashData8 v => cases hi
  | _ => rfl

/-- An instruction that is neither a data write nor one of the writes ruled out by 41_hasher.md R97 leaves the
elements that appending changes. -/
theorem after_pending_kept {i : Instr} (hdata : isDataWrite i = false) (hi : disturbsHash i = false) (s : State) :
    SamePending (after i s) s := by
  by_cases hunit : unitOf i = .hasher
  · cases i with
    | wrHashData1 v | wrHashData2 v | wrHashData4 v | wrHashData8 v => cases hdata
    | wrHashAcc v | wrHashTail v | wrHashCount v | wrHashCtrl v => cases hi
    | wrHashSeed v | wrHashLen v => exact ⟨rfl, rfl, rfl, rfl⟩
    | rdHashSeed | rdHashLen | rdHashAcc | rdHashTail | rdHashCount | rdHashDigest => exact ⟨rfl, rfl, rfl, rfl⟩
    | _ => cases hunit
  · obtain ⟨-, -, hacc, htbuf, htcnt, hcount⟩ := after_sameHasher hunit s
    exact ⟨hacc.symm, htbuf.symm, htcnt.symm, hcount.symm⟩

/-- An instruction that is none of those writes appends its bytes and does no more. -/
theorem after_samePending {i : Instr} (hi : disturbsHash i = false) (s : State) :
    SamePending (after i s) (s.appendBytes Config.inst (appended i)) := by
  cases hdata : isDataWrite i with
  | true => rw [after_of_dataWrite hdata]; exact ⟨rfl, rfl, rfl, rfl⟩
  | false => rw [appended_eq_nil hdata]; exact after_pending_kept hdata hi s

/-- Transactions that are none of those writes append all their bytes, in order. -/
theorem afterAll_samePending {ts : List Txn} (h : ∀ t ∈ ts, disturbsHash (decodeTxn t) = false) (s : State) :
    SamePending (afterAll ts s) (s.appendBytes Config.inst (ts.flatMap fun t => appended (decodeTxn t))) := by
  induction ts generalizing s with
  | nil => exact ⟨rfl, rfl, rfl, rfl⟩
  | cons t ts ih =>
    rw [List.forall_mem_cons] at h
    obtain ⟨hfirst, hrest⟩ := h
    rw [afterAll_cons, List.flatMap_cons, State.appendBytes_append]
    exact (ih hrest _).trans ((after_samePending hfirst s).appendBytes Config.inst _)

/-- Only a write of HASH_LEN changes the declared length (41_hasher.md R90). -/
theorem after_hashLen {i : Instr} (hi : writesLen i = false) (s : State) : (after i s).hashLen = s.hashLen := by
  by_cases hdata : isDataWrite i = true
  · rw [after_of_dataWrite hdata]
    exact (State.appendBytes_frame Config.inst _ s).hashLen
  by_cases hunit : unitOf i = .hasher
  · cases i with
    | wrHashLen v => cases hi
    | wrHashData1 v | wrHashData2 v | wrHashData4 v | wrHashData8 v => exact absurd rfl hdata
    | wrHashCtrl v =>
      have hctrl : after (.wrHashCtrl v) s = (if v.getLsbD 0 then s.startHash Config.inst else s).accept := rfl
      rw [hctrl]
      split <;> rfl
    | wrHashSeed v | wrHashAcc v | wrHashTail v | wrHashCount v => rfl
    | rdHashSeed | rdHashLen | rdHashAcc | rdHashTail | rdHashCount | rdHashDigest => rfl
    | _ => cases hunit
  · exact (after_sameHasher hunit s).hashLen.symm

theorem afterAll_hashLen {ts : List Txn} (h : ∀ t ∈ ts, writesLen (decodeTxn t) = false) (s : State) :
    (afterAll ts s).hashLen = s.hashLen := by
  induction ts generalizing s with
  | nil => rfl
  | cons t ts ih =>
    rw [List.forall_mem_cons] at h
    obtain ⟨hfirst, hrest⟩ := h
    rw [afterAll_cons, ih hrest, after_hashLen hfirst]

/-- HASH_SEED, HASH_LEN and any START begin a hash (41_hasher.md R97). -/
theorem afterAll_start {ctrl : Word} (hbit : ctrl.getLsbD 0 = true) (seed len : Word) (s : State) :
    afterAll [⟨0xB020, seed⟩, ⟨0xB028, len⟩, ⟨0xB030, ctrl⟩] s = s.hashStarted seed len :=
  after_eq_of_exec (exec_wrHashCtrl_start hbit ((s.setHashSeed seed).accept.setHashLen len).accept)

/-- Settles O41: after START the Hasher holds what appending the bytes gives, and that is what the digest function
computes; the count is their number. -/
theorem engineComputesTheDigest : Obligations.EngineComputesTheDigest := by
  intro s seed len ctrl ts hreset hbit hts
  refine ⟨_, runTxns_eq _ s hreset, ?_⟩
  rw [afterAll_append, afterAll_append, afterAll_start hbit, afterAll_cons, afterAll_nil]
  have hpending := afterAll_samePending hts (s.hashStarted seed len)
  have hdigest := (hpending.digest_eq Config.inst).trans (State.digest_appendBytes Config.inst _ _ rfl rfl)
  have hresp := congrArg Response.data hdigest
  refine ⟨hresp, fun hlen => ?_, fun hkeep => ?_⟩
  · rw [hash, ← hlen]
    exact hresp
  · rw [State.statusWord_getLsbD _ 0 (by decide), if_pos rfl]
    show ((afterAll ts (s.hashStarted seed len)).count == (afterAll ts (s.hashStarted seed len)).hashLen) = _
    rw [hpending.count, State.appendBytes_count, afterAll_hashLen hkeep]
    show (0#64 + BitVec.ofNat 64 _ == len) = _
    rw [BitVec.zero_add, Bool.eq_iff_iff, beq_iff_eq, decide_eq_true_iff, ← BitVec.toNat_inj, BitVec.toNat_ofNat]

/-! ### Streaming -/

/-- HASH_DATA writes with digest reads among them append the bytes they carry; the answer is all that tells how they
were split and where the reads were (41_hasher.md R98). -/
theorem afterAll_streaming {ts : List Txn}
    (h : ∀ t ∈ ts, isDataWrite (decodeTxn t) = true ∨ decodeTxn t = .rdHashDigest) (s : State) :
    ∃ r, afterAll ts s = (s.appendBytes Config.inst (ts.flatMap fun t => appended (decodeTxn t))).respond r := by
  induction ts generalizing s with
  | nil => exact ⟨s.resp, rfl⟩
  | cons t ts ih =>
    rw [List.forall_mem_cons] at h
    obtain ⟨hfirst, hrest⟩ := h
    have hone : ∃ r, after (decodeTxn t) s = (s.appendBytes Config.inst (appended (decodeTxn t))).respond r := by
      rcases hfirst with hwrite | hread
      · exact ⟨.ack, after_of_dataWrite hwrite s⟩
      · rw [hread]
        exact ⟨_, rfl⟩
    obtain ⟨r, hr⟩ := hone
    obtain ⟨r', hr'⟩ := ih hrest (after (decodeTxn t) s)
    refine ⟨r', ?_⟩
    rw [afterAll_cons, hr', hr, State.appendBytes_respond, List.flatMap_cons, State.appendBytes_append]
    rfl

/-- Settles O42: both lists lead to the state after appending the same bytes, but for the answer. -/
theorem streamingDependsOnlyOnTheBytes : Obligations.StreamingDependsOnlyOnTheBytes := by
  intro s ts us hreset hts hus hbytes
  obtain ⟨r, hr⟩ := afterAll_streaming hts s
  obtain ⟨q, hq⟩ := afterAll_streaming hus s
  rw [← hbytes] at hq
  refine ⟨_, _, runTxns_eq ts s hreset, runTxns_eq us s hreset, ?_⟩
  rw [hr, hq]
  exact ⟨.of_respond _ q, rfl⟩

/-! ### Save and restore -/

/-- The count of a tail word. -/
theorem tailCountOf_tailWord (s : State) : tailCountOf s.tailWord = s.tcnt := by
  ext j hj
  rw [← BitVec.getLsbD_eq_getElem, ← BitVec.getLsbD_eq_getElem, tailCountOf, State.tailWord,
    BitVec.getLsbD_extractLsb', BitVec.getLsbD_or, BitVec.getLsbD_shiftLeft, zext64_getLsbD, zext64_getLsbD,
    BitVec.getLsbD_of_ge s.tbuf (56 + j) (by omega)]
  simp [hj, show 56 + j < 64 by omega, show j < 64 by omega]

/-- The bytes of a tail word. -/
theorem tailBytesOf_tailWord (s : State) : tailBytesOf s.tailWord = s.tbuf := by
  ext j hj
  rw [← BitVec.getLsbD_eq_getElem, ← BitVec.getLsbD_eq_getElem, tailBytesOf, State.tailWord,
    BitVec.getLsbD_extractLsb', BitVec.getLsbD_or, BitVec.getLsbD_shiftLeft, zext64_getLsbD, zext64_getLsbD]
  simp [hj, show j < 64 by omega]

/-- Writing the tail word of a clean tail restores the tail (41_hasher.md R94, R95). -/
theorem State.writeTail_tailWord {s : State} (h : s.tailClean = true) (u : State) :
    u.writeTail s.tailWord = u.setTail s.tcnt s.tbuf := by
  rw [State.writeTail, tailCountOf_tailWord, tailBytesOf_tailWord, State.keepTail_tbuf_of_tailClean h]

/-- Legal reads that are no draws leave what the reads after them answer. -/
theorem answers_reads {ts : List Txn}
    (h : ∀ t ∈ ts, isLegalRead (decodeTxn t) = true ∧ isDraw (decodeTxn t) = false) {s : State}
    (hs : s.inReset = false) : answers ts s = ts.map fun t => (after (decodeTxn t) s).resp := by
  induction ts generalizing s with
  | nil => rfl
  | cons t ts ih =>
    rw [List.forall_mem_cons] at h
    obtain ⟨⟨hread, hdraw⟩, hrest⟩ := h
    have hout : (after (decodeTxn t) s).inReset = false := (after_inReset _ s).trans hs
    rw [answers_cons t ts s hs, ih hrest hout, List.map_cons]
    refine congrArg _ (List.map_congr_left fun t' ht' => ?_)
    rw [after_eq_respond_of_read hread hdraw s, after_respond_of_read (hrest t' ht').left]

/-- The four reads that save a Hasher's computation (41_hasher.md R102). -/
theorem answers_save {s : State} (h : s.inReset = false) :
    answers [⟨0x3040, 0⟩, ⟨0x3048, 0⟩, ⟨0x3050, 0⟩, ⟨0x3028, 0⟩] s =
      [.data s.acc, .data s.tailWord, .data s.count, .data s.hashLen] :=
  answers_reads (by decide) h

/-- The four writes that restore it. -/
theorem afterAll_restore (a b c l : Word) (u : State) :
    afterAll [⟨0xB040, a⟩, ⟨0xB048, b⟩, ⟨0xB050, c⟩, ⟨0xB028, l⟩] u =
      ((((u.setAcc a).accept.writeTail b).setCount c).setHashLen l).accept := rfl

/-- Settles O46: the four values are the elements, and the tail word of a clean tail carries the tail. -/
theorem saveAndRestoreAreComplete : Obligations.SaveAndRestoreAreComplete := by
  intro s u hs hu hclean
  refine ⟨_, _, _, _, answers_save hs, _, runTxns_eq _ u hu, ?_⟩
  rw [afterAll_restore, State.writeTail_tailWord hclean]
  exact ⟨rfl, rfl, rfl, rfl, rfl⟩

end Sys2Proof.Machine

/-! PROOFS. The RNG (spec/42_rng.md): its registers and the draw, the binary64 view, the closed form of a stream, the
period of the counter and what the Mixer is given in it, and forks. -/

namespace Sys2Proof.Machine

/-! ### The registers and the draw -/

/-- Settles O49: each transaction's meaning, as the dispatch gives it. -/
theorem rngRegisterResults : Obligations.RngRegisterResults :=
  fun s v => ⟨exec_wrRngSeed v s, exec_wrRngCtr v s, exec_rdRngCtr s, exec_wrRngKey v s, exec_rdRngKey s⟩

/-- The upper half of a word, zero-extended, is the word shifted down. -/
theorem zext64_upper32 (x : Word) : zext64 (upper32 x) = x >>> 32 := by
  ext j hj
  rw [← BitVec.getLsbD_eq_getElem, ← BitVec.getLsbD_eq_getElem, zext64_getLsbD, upper32,
    BitVec.getLsbD_extractLsb', BitVec.getLsbD_ushiftRight]
  by_cases hlow : j < 32
  · simp [hj, hlow]
  · simp [hlow, BitVec.getLsbD_of_ge x (32 + j) (by omega)]

/-- A draw advances the counter and answers with its view of the drawn word (42_rng.md R105 to R108). -/
theorem after_of_draw {i : Instr} (hdraw : isDraw i = true) (s : State) :
    after i s = (s.advance Config.inst).answer64 (drawView i (s.drawn Config.inst)) := by
  cases i with
  | rdRngNext64 | rdRngNextF64 => rfl
  | rdRngNext32 | rdRngNext32W => exact congrArg (s.advance Config.inst).answer64 (zext64_upper32 _)
  | _ => cases hdraw

/-- Settles O50: the four views of one draw. -/
theorem drawResults : Obligations.DrawResults := by
  intro s c x
  have hdraw {i : Instr} (hi : isDraw i = true) :
      exec i s = .next { s with ctr := c, resp := .data (drawView i x) } := by
    rw [exec_after, after_of_draw hi]
    rfl
  exact ⟨hdraw rfl, hdraw rfl, hdraw rfl, hdraw rfl⟩

/-! ### The binary64 view -/

/-- The highest one bit of a non-zero 53-bit value. -/
theorem highestBit_bounds {m : Word} (hm : m ≠ 0) (hlt : m.toNat < 2 ^ 53) :
    2 ^ highestBit m ≤ m.toNat ∧ m.toNat < 2 ^ (highestBit m + 1) ∧ highestBit m ≤ 52 := by
  have hne : m.toNat ≠ 0 := fun h => hm (BitVec.eq_of_toNat_eq h)
  exact ⟨Nat.log2_self_le hne, Nat.lt_log2_self, Nat.le_of_lt_succ ((Nat.log2_lt hne).2 hlt)⟩

/-- Shifted so that its highest one bit is bit 52, the value is that bit and a 52-bit fraction. -/
theorem exists_fraction {m : Word} (hm : m ≠ 0) (hlt : m.toNat < 2 ^ 53) :
    ∃ f < 2 ^ 52, m.toNat * 2 ^ (52 - highestBit m) = 2 ^ 52 + f := by
  obtain ⟨hlow, hhigh, hbit⟩ := highestBit_bounds hm hlt
  have hone : 2 ^ highestBit m * 2 ^ (52 - highestBit m) = 2 ^ 52 := by rw [← pow_add, Nat.add_sub_cancel' hbit]
  have hge : 2 ^ 52 ≤ m.toNat * 2 ^ (52 - highestBit m) := hone ▸ Nat.mul_le_mul_right _ hlow
  have hlt' : m.toNat * 2 ^ (52 - highestBit m) < 2 ^ 52 * 2 := by
    rw [← hone, mul_right_comm, ← pow_succ]
    exact Nat.mul_lt_mul_of_pos_right hhigh (by positivity)
  exact ⟨m.toNat * 2 ^ (52 - highestBit m) - 2 ^ 52, by omega, by omega⟩

/-- The encoding of a non-zero value as a number: the exponent field above the fraction (42_rng.md R108). -/
theorem f64bits_toNat {m : Word} (hm : m ≠ 0) (hbit : highestBit m ≤ 52) {f : Nat} (hf : f < 2 ^ 52)
    (hshift : m.toNat * 2 ^ (52 - highestBit m) = 2 ^ 52 + f) :
    (f64bits m).toNat = (highestBit m + 970) * 2 ^ 52 + f := by
  have hexp : (BitVec.ofNat 64 (highestBit m + 970) <<< 52).toNat = (highestBit m + 970) <<< 52 := by
    rw [BitVec.toNat_shiftLeft, BitVec.toNat_ofNat, Nat.shiftLeft_eq, Nat.shiftLeft_eq]
    omega
  have hfrac : ((m <<< (52 - highestBit m)) &&& 0x000FFFFFFFFFFFFF).toNat = f := by
    rw [BitVec.toNat_and, BitVec.toNat_shiftLeft, Nat.shiftLeft_eq, hshift, Nat.mod_eq_of_lt (by omega)]
    show (2 ^ 52 + f) &&& (2 ^ 52 - 1) = f
    rw [Nat.and_two_pow_sub_one_eq_mod]
    omega
  rw [f64bits, if_neg hm, BitVec.toNat_or, hexp, hfrac, ← Nat.shiftLeft_add_eq_or_of_lt hf, Nat.shiftLeft_eq]

/-- The three fields of a binary64 word whose exponent field is `e` and whose fraction is `f`. -/
theorem binary64_fields {x : Word} {e f : Nat} (he : e < 2 ^ 11) (hf : f < 2 ^ 52) (hx : x.toNat = e * 2 ^ 52 + f) :
    x.getLsbD 63 = false ∧ (BitVec.extractLsb' 52 11 x).toNat = e ∧ (BitVec.extractLsb' 0 52 x).toNat = f := by
  refine ⟨?_, ?_, ?_⟩
  · exact Nat.testBit_lt_two_pow (by omega)
  · rw [BitVec.extractLsb'_toNat, Nat.shiftRight_eq_div_pow]
    omega
  · rw [BitVec.extractLsb'_toNat, Nat.shiftRight_zero]
    omega

/-- Settles O51: the exponent field is the place of the highest one bit, so the encoded number is the value shifted
back. -/
theorem floatDrawIsExact : Obligations.FloatDrawIsExact := by
  refine ⟨if_pos rfl, fun m hm hlt => ?_⟩
  obtain ⟨-, -, hbit⟩ := highestBit_bounds hm hlt
  obtain ⟨f, hf, hshift⟩ := exists_fraction hm hlt
  have hbits := f64bits_toNat hm hbit hf hshift
  obtain ⟨hsign, hexp, hfrac⟩ := binary64_fields (by omega) hf hbits
  have hexact : (2 ^ 52 + f) * 2 ^ (highestBit m + 970 - 970) = m.toNat * 2 ^ 52 := by
    rw [← hshift, Nat.add_sub_cancel, mul_assoc, ← pow_add, Nat.sub_add_cancel hbit]
  rw [hexp, hfrac, hbits]
  refine ⟨hsign, by omega, by omega, hexact, ?_, ?_⟩
  · show 0x3CA0000000000000 ≤ _
    omega
  · show _ ≤ 0x3FEFFFFFFFFFFFFF
    omega

/-! ### The closed form -/

theorem SameRng.trans {s t u : State} (h : SameRng s t) (h' : SameRng t u) : SameRng s u :=
  ⟨h.ctr.trans h'.ctr, h.key.trans h'.key⟩

theorem SameRng.advance_iterate {s t : State} (h : SameRng s t) (P : Params) (k : Nat) :
    SameRng ((State.advance P)^[k] s) ((State.advance P)^[k] t) := by
  rw [State.advance_iterate, State.advance_iterate]
  exact ⟨congrArg (· + BitVec.ofNat 64 k * P.rngInc) h.ctr, h.key⟩

/-- An instruction that neither writes an RNG register nor draws leaves the RNG's elements. -/
theorem after_rng_kept {i : Instr} (hwrite : writesRng i = false) (hdraw : isDraw i = false) (s : State) :
    SameRng (after i s) s := by
  by_cases hunit : unitOf i = .rng
  · cases i with
    | wrRngSeed v | wrRngCtr v | wrRngKey v => cases hwrite
    | rdRngNext64 | rdRngNext32 | rdRngNext32W | rdRngNextF64 => cases hdraw
    | rdRngCtr | rdRngKey => exact ⟨rfl, rfl⟩
    | _ => cases hunit
  · obtain ⟨hctr, hkey⟩ := State.withUnit_sameRng hunit s (after i s)
    rw [after_eq_withUnit]
    exact ⟨hctr.symm, hkey.symm⟩

/-- Transactions that write no RNG register advance the counter once for each draw among them, and do no more to the
RNG. -/
theorem afterAll_sameRng {ts : List Txn} (h : ∀ t ∈ ts, writesRng (decodeTxn t) = false) (s : State) :
    SameRng (afterAll ts s) ((State.advance Config.inst)^[drawCount ts] s) := by
  induction ts generalizing s with
  | nil => exact ⟨rfl, rfl⟩
  | cons t ts ih =>
    rw [List.forall_mem_cons] at h
    obtain ⟨hfirst, hrest⟩ := h
    rw [afterAll_cons, drawCount, List.countP_cons, ← drawCount]
    refine (ih hrest _).trans ?_
    cases hdraw : isDraw (decodeTxn t) with
    | true =>
      have hanswer (u : State) (v : Word) : SameRng (u.answer64 v) u := ⟨rfl, rfl⟩
      rw [if_pos rfl, Function.iterate_succ_apply, after_of_draw hdraw]
      exact (hanswer _ _).advance_iterate _ _
    | false => exact (after_rng_kept hfirst hdraw s).advance_iterate _ _

/-- After seeding and such transactions the counter is the number of draws times the increment, and the key is still
that of the seed (42_rng.md R104, R105). -/
theorem afterAll_seeded {ts : List Txn} (h : ∀ t ∈ ts, writesRng (decodeTxn t) = false) (seed : Word) (s : State) :
    (afterAll (⟨0xB060, seed⟩ :: ts) s).ctr = BitVec.ofNat 64 (drawCount ts) * Config.inst.rngInc ∧
      (afterAll (⟨0xB060, seed⟩ :: ts) s).key = seed ^^^ Config.inst.rngSeedXor := by
  obtain ⟨hctr, hkey⟩ := afterAll_sameRng h (s.seedRng Config.inst seed).accept
  rw [State.advance_iterate] at hctr hkey
  exact ⟨hctr.trans (BitVec.zero_add _), hkey⟩

/-- Settles O52: the last draw is one more than those between. -/
theorem drawsHaveTheClosedForm : Obligations.DrawsHaveTheClosedForm := by
  intro st seed ts last hreset hts hlast
  refine ⟨_, runTxns_eq _ st hreset, ?_⟩
  rw [List.singleton_append, afterAll_append, afterAll_cons, afterAll_nil, after_of_draw hlast, State.drawn_eq]
  obtain ⟨hctr, hkey⟩ := afterAll_seeded hts seed st
  have hnext : (afterAll (⟨0xB060, seed⟩ :: ts) st).ctr + Config.inst.rngInc =
      BitVec.ofNat 64 (drawCount ts + 1) * Config.inst.rngInc := by
    rw [hctr, BitVec.ofNat_add, BitVec.add_mul]
    exact congrArg _ (BitVec.one_mul _).symm
  rw [hkey, hnext]
  exact ⟨hnext, rfl⟩

/-! ### The period of the counter -/

/-- After `j` and after `k` draws the counter is the same exactly when so are the two multiples of the increment. -/
theorem advance_iterate_ctr_eq_iff (P : Params) (s : State) (j k : Nat) :
    ((State.advance P)^[j] s).ctr = ((State.advance P)^[k] s).ctr ↔
      BitVec.ofNat 64 j * P.rngInc = BitVec.ofNat 64 k * P.rngInc := by
  rw [State.advance_iterate, State.advance_iterate]
  exact BitVec.add_right_inj _

/-- The counter is back after `k` draws exactly when `k` times the increment is a multiple of 2^64. -/
theorem advance_iterate_ctr_eq_self_iff (P : Params) (s : State) (k : Nat) :
    ((State.advance P)^[k] s).ctr = s.ctr ↔ 2 ^ 64 ∣ k * P.rngInc.toNat := by
  have hback := advance_iterate_ctr_eq_iff P s k 0
  rw [Function.iterate_zero_apply] at hback
  rw [hback, Nat.dvd_iff_mod_eq_zero, ← BitVec.toNat_inj]
  simp

/-- Which multiples of `2^t * m`, with `m` odd, 2^64 divides. -/
theorem two_pow_dvd_mul_iff {t m : Nat} (ht : t ≤ 64) (hm : m % 2 = 1) (k : Nat) :
    2 ^ 64 ∣ k * (2 ^ t * m) ↔ 2 ^ 64 / 2 ^ t ∣ k := by
  have hcoprime : Nat.Coprime (2 ^ 64) m := (Nat.coprime_two_left.2 (Nat.odd_iff.2 hm)).pow_left 64
  rw [← mul_assoc, hcoprime.dvd_mul_right, Nat.div_dvd_iff_dvd_mul (pow_dvd_pow 2 ht) (by positivity), mul_comm k]

/-- The period for an increment `2^t * m` with `m` odd (42_rng.md R114). -/
theorem advance_iterate_ctr_period {P : Params} {t m : Nat} (hinc : P.rngInc.toNat = 2 ^ t * m) (hm : m % 2 = 1)
    (s : State) (k : Nat) : ((State.advance P)^[k] s).ctr = s.ctr ↔ 2 ^ 64 / 2 ^ t ∣ k := by
  have hpow : 2 ^ t < 2 ^ 64 :=
    calc 2 ^ t ≤ 2 ^ t * m := Nat.le_mul_of_pos_right _ (by omega)
      _ = P.rngInc.toNat := hinc.symm
      _ < 2 ^ 64 := P.rngInc.isLt
  have ht : t ≤ 64 := ((Nat.pow_lt_pow_iff_right (by decide)).1 hpow).le
  rw [advance_iterate_ctr_eq_self_iff, hinc, two_pow_dvd_mul_iff ht hm]

/-- Settles O53: an odd increment is a one-to-one multiplier, and is the case t = 0 of the period. -/
theorem counterPeriod : Obligations.CounterPeriod := by
  intro P s
  refine ⟨fun hodd => ⟨fun j k hj hk hctr => ?_, ?_⟩, fun t m hinc hm => advance_iterate_ctr_period hinc hm s,
    fun hzero k => ?_⟩
  · rw [advance_iterate_ctr_eq_iff] at hctr
    have hwords : BitVec.ofNat 64 j = BitVec.ofNat 64 k := mixStep_mul_injective hodd hctr
    rwa [← BitVec.toNat_inj, BitVec.toNat_ofNat, BitVec.toNat_ofNat, Nat.mod_eq_of_lt hj, Nat.mod_eq_of_lt hk]
      at hwords
  · have hmod : P.rngInc.toNat % 2 = 1 := by simpa [Params.incOdd, BitVec.getLsbD] using hodd
    exact advance_iterate_ctr_period (t := 0) (by rw [pow_zero, one_mul]) hmod s
  · rw [advance_iterate_ctr_eq_self_iff, hzero]
    exact dvd_zero _

/-! ### What the Mixer is given -/

/-- With an odd increment the counter goes through all values. -/
theorem exists_advance_iterate_ctr {P : Params} (hodd : P.incOdd = true) (s : State) (c : Word) :
    ∃ k < 2 ^ 64, ((State.advance P)^[k] s).ctr = c := by
  obtain ⟨n, hn⟩ := Finite.surjective_of_injective (mixStep_mul_injective hodd) (c - s.ctr)
  rw [mixStep_mul] at hn
  refine ⟨n.toNat, n.isLt, ?_⟩
  rw [State.advance_iterate, BitVec.ofNat_toNat, BitVec.setWidth_eq, hn]
  exact (BitVec.add_comm _ _).trans (BitVec.sub_add_cancel _ _)

/-- What the `k + 1`-st of consecutive draws gives the Mixer. -/
theorem advance_iterate_drawn (P : Params) (s : State) (k : Nat) :
    ((State.advance P)^[k] s).drawn P = mix P (((State.advance P)^[k + 1] s).ctr + s.key) := by
  rw [Function.iterate_succ_apply', State.drawn, State.advance_iterate]
  rfl

/-- With an odd increment every word is what some draw of 2^64 gives the Mixer (42_rng.md R115). -/
theorem exists_draw_input {P : Params} (hodd : P.incOdd = true) (s : State) (y : Word) :
    ∃ k < 2 ^ 64, ((State.advance P)^[k + 1] s).ctr + s.key = y := by
  obtain ⟨k, hk, hctr⟩ := exists_advance_iterate_ctr hodd (s.advance P) (y - s.key)
  refine ⟨k, hk, ?_⟩
  rw [Function.iterate_succ_apply, hctr, BitVec.sub_add_cancel]

/-- A program with a multiplication by 0 is the zero function. -/
theorem mix_eq_zero_of_mul_zero {P : Params} (h : MixStep.mul 0 ∈ P.mixProg.steps) (x : Word) : mix P x = 0 := by
  obtain ⟨k, l, hsteps⟩ := List.append_of_mem h
  have hzero (y : Word) : mixStep (.mul 0) y = 0 := BitVec.mul_zero
  rw [mix, hsteps, mixSteps_append, mixSteps_cons, hzero, mixSteps_zero]

/-- Settles O54: a word that does not mix to 0 is the input of some draw. -/
theorem drawsCoverAllMixerInputs : Obligations.DrawsCoverAllMixerInputs := by
  intro P s
  refine ⟨fun hodd => ⟨exists_draw_input hodd s, fun ⟨x, hx⟩ => ?_⟩, fun h => mix_eq_zero_of_mul_zero h,
    fun r hfirst t hinput => ?_⟩
  · obtain ⟨k, hk, hinput⟩ := exists_draw_input hodd s x
    refine ⟨k, hk, ?_⟩
    rwa [advance_iterate_drawn, hinput]
  · obtain ⟨hnot, -⟩ := mixIgnoresComplement P r hfirst
    calc t.drawn P
        = mix P (~~~((s.advance P).ctr + s.key)) := congrArg (mix P) hinput
      _ = s.drawn P := hnot _

/-! ### Forks -/

/-- RNG transactions are answered alike when the RNG's elements agree, whatever else the two blocks hold. -/
theorem answers_congr_rng {ts : List Txn} (h : ∀ x ∈ ts, unitOf (decodeTxn x) = .rng) {s t : State}
    (hs : s.inReset = false) (ht : t.inReset = false) (hst : SameRng s t) : answers ts s = answers ts t := by
  induction ts generalizing s t with
  | nil => rfl
  | cons x ts ih =>
    rw [List.forall_mem_cons] at h
    obtain ⟨hfirst, hrest⟩ := h
    obtain ⟨hafter, hresp⟩ := after_congr_rng hfirst hst
    rw [answers_cons x ts s hs, answers_cons x ts t ht, hresp,
      ih hrest ((after_inReset _ s).trans hs) ((after_inReset _ t).trans ht) hafter]

/-- The two reads of a fork answer with the RNG's elements (42_rng.md R116). -/
theorem answers_rsave {s : State} (h : s.inReset = false) :
    answers (Line.txns .rsave) s = [.data s.ctr, .data s.key] :=
  answers_reads (by decide) h

/-- The two writes of a fork set the RNG's elements. -/
theorem afterAll_rload (c k : Word) (t : State) :
    afterAll (Line.txns (.rload c k)) t = ((t.setCtr c).accept.setKey k).accept := rfl

/-- Settles O55: after the two writes the RNG's elements are those that were read. -/
theorem forkedStreamsAgree : Obligations.ForkedStreamsAgree := by
  intro s t ts hs ht hts
  refine ⟨s.ctr, s.key, _, answers_rsave hs, runTxns_eq _ t ht, ?_⟩
  rw [answers_takeInput, afterAll_rload]
  exact answers_congr_rng hts ht hs ⟨rfl, rfl⟩

end Sys2Proof.Machine

/-! PROOFS. The control registers (spec/43_control.md): ID and STATUS, what an illegal transaction does, and that the
access-error flag is seen by nothing but the reads of STATUS. -/

namespace Sys2Proof.Machine

/-! ### Identification and status -/

/-- The word STATUS reads as, written with the values its flags contribute: for `ACCERR` the number 0x100 or 0, taken as a
word (10_state.md R34). -/
theorem State.statusWord_eq (s : State) :
    s.statusWord = ((if s.accerr then 0x100 else 0 : Nat) : Word) ||| (s.tcnt.setWidth 64 <<< 1)
      ||| (if s.count = s.hashLen then 1 else 0) := by
  have herr (b : Bool) : zext64 (BitVec.ofBool b) <<< 8 = ((if b then 0x100 else 0 : Nat) : Word) := by cases b <;> rfl
  have hlen (b : Bool) : zext64 (BitVec.ofBool b) = if b then 1 else 0 := by cases b <;> rfl
  rw [State.statusWord, herr, hlen]
  simp only [State.lenMatch, beq_iff_eq, zext64]

/-- Settles O56: the two reads answer their words, and the write of STATUS is its equation. -/
theorem controlRegisterResults : Obligations.ControlRegisterResults := by
  intro s v
  refine ⟨exec_rdId s, ?_, ?_⟩
  · rw [exec_rdStatus, State.statusWord_eq]
    rfl
  · rw [exec_wrStatus, State.writeStatus_eq]
    rfl

/-! ### Illegal transactions -/

/-- Settles O59: a descriptor outside the opcode map is decoded as ILLEGAL, and ILLEGAL is the one abnormal event. -/
theorem illegalTransactionResult : Obligations.IllegalTransactionResult := by
  refine ⟨exec_illegal, fun d v s rest hin hreset hrow => ?_⟩
  rw [stepRunsTheArrivingTransaction s d v rest hin hreset, decode_of_no_row d v hrow]
  exact exec_illegal d _ _

/-! ### What the access-error flag influences -/

/-- Blocks whose three units agree still do, and answer alike, after any instruction but the read of STATUS: an
instruction of a unit depends on that unit only, and the other instructions of the interface answer without looking at
the flag. -/
theorem after_congr_units {i : Instr} (hi : i ≠ .rdStatus) {s s' : State} (h : SameUnits s s') :
    SameUnits (after i s) (after i s') ∧ (after i s).resp = (after i s').resp := by
  rw [after_eq_withUnit i s, after_eq_withUnit i s']
  cases hunit : unitOf i with
  | mixer =>
    obtain ⟨hmixer, hresp⟩ := after_congr_mixer hunit h.mixer
    exact ⟨⟨hmixer, { h.hasher with }, { h.rng with }⟩, hresp⟩
  | hasher =>
    obtain ⟨hhasher, hresp⟩ := after_congr_hasher hunit h.hasher
    exact ⟨⟨h.mixer, { hhasher with }, { h.rng with }⟩, hresp⟩
  | rng =>
    obtain ⟨hrng, hresp⟩ := after_congr_rng hunit h.rng
    exact ⟨⟨h.mixer, { h.hasher with }, { hrng with }⟩, hresp⟩
  | interface =>
    refine ⟨⟨h.mixer, { h.hasher with }, { h.rng with }⟩, ?_⟩
    cases i with
    | rdStatus => exact absurd rfl hi
    | rdId | wrStatus v | illegal d v => rfl
    | _ => cases hunit

/-- The same along a sequence of transactions: the answers are equal, and the units agree at the end. -/
theorem answers_afterAll_congr_units {ts : List Txn} (hts : ∀ t ∈ ts, decodeTxn t ≠ .rdStatus) {s s' : State}
    (hs : s.inReset = false) (hs' : s'.inReset = false) (h : SameUnits s s') :
    answers ts s = answers ts s' ∧ SameUnits (afterAll ts s) (afterAll ts s') := by
  induction ts generalizing s s' with
  | nil => exact ⟨rfl, h⟩
  | cons t ts ih =>
    rw [List.forall_mem_cons] at hts
    obtain ⟨hfirst, hrest⟩ := hts
    obtain ⟨hafter, hresp⟩ := after_congr_units hfirst h
    obtain ⟨hanswers, hend⟩ := ih hrest ((after_inReset _ s).trans hs) ((after_inReset _ s').trans hs') hafter
    rw [answers_cons t ts s hs, answers_cons t ts s' hs', hresp, hanswers]
    exact ⟨rfl, hend⟩

/-- Settles O20: two blocks that differ in the flag only have the same units to start with. -/
theorem accErrInfluencesOnlyStatusReads : Obligations.AccErrInfluencesOnlyStatusReads := by
  intro ts s b hs hts
  have hstart : SameUnits s { s with accerr := b } := by
    constructor <;> constructor <;> rfl
  obtain ⟨hanswers, hend⟩ := answers_afterAll_congr_units hts hs (s' := { s with accerr := b }) hs hstart
  refine ⟨hanswers.symm, _, _, runTxns_eq ts s hs, runTxns_eq ts { s with accerr := b } hs, ?_⟩
  exact ⟨hend.mixer, { hend.hasher with }, { hend.rng with }⟩

end Sys2Proof.Machine

/-! PROOFS. Exceptions (spec/60_exceptions.md): the block has none, so every step and every run goes on. -/

namespace Sys2Proof.Machine

/-- Every step goes on, whatever arrives and whether or not reset is asserted (60_exceptions.md R124). -/
theorem step_exists_next (s : State) : ∃ t, step s = .next t := by
  cases hin : s.inputs with
  | nil => exact ⟨s, by rw [step_of_inputs, hin]⟩
  | cons a rest =>
    have hserve := step_takeInput_cons s a rest
    rw [← hin, State.takeInput_self] at hserve
    exact ⟨_, hserve⟩

/-- A machine whose steps all go on has no run that stops. -/
theorem core_run_exists_next (M : Host.Core) (h : ∀ s, ∃ t, M.step s = .next t) (k : Nat) (s : M.State) :
    ∃ t, M.run k s = .next t := by
  induction k generalizing s with
  | zero => exact ⟨s, rfl⟩
  | succ k ih =>
    obtain ⟨u, hstep⟩ := h s
    rw [core_run_succ M k s u hstep]
    exact ih u

/-- Settles O13: every instruction has a next state, so every step has one, and so has every run. -/
theorem noRunEverStops : Obligations.NoRunEverStops :=
  ⟨fun i s => ⟨after i s, exec_after i s⟩, core_run_exists_next Sys2Proof.core step_exists_next⟩

end Sys2Proof.Machine

/-! PROOFS. The reset input (spec/70_reset_and_hazards.md): what a step does under it, and what the reset state means for
the three units. -/

namespace Sys2Proof.Machine

/-! ### The reset input -/

/-- With something arriving, a step serves the oldest input, and the rest is still to arrive. -/
theorem step_of_inputs_cons {s : State} {a : Input} {rest : List Input} (h : s.inputs = a :: rest) :
    step s = .next ((s.serve a).takeInput rest) := by
  rw [← step_takeInput_cons, ← h, State.takeInput_self]

/-- The reset values are one value for each element, so two blocks that hold them agree. -/
theorem State.AtResetValues.sameElements {s t : State} (hs : s.AtResetValues) (ht : t.AtResetValues) :
    SameElements s t where
  units.mixer := hs.mixIn.trans ht.mixIn.symm
  units.hasher.hashSeed := hs.hashSeed.trans ht.hashSeed.symm
  units.hasher.hashLen := hs.hashLen.trans ht.hashLen.symm
  units.hasher.acc := hs.acc.trans ht.acc.symm
  units.hasher.tbuf := hs.tbuf.trans ht.tbuf.symm
  units.hasher.tcnt := hs.tcnt.trans ht.tcnt.symm
  units.hasher.count := hs.count.trans ht.count.symm
  units.rng.ctr := hs.ctr.trans ht.ctr.symm
  units.rng.key := hs.key.trans ht.key.symm
  accerr := hs.accerr.trans ht.accerr.symm

theorem State.AtResetValues.takeInput {s : State} (h : s.AtResetValues) (rest : List Input) :
    (s.takeInput rest).AtResetValues := { h with }

theorem State.enterReset_inReset (s : State) (cut : Option Txn) : (s.enterReset cut).inReset = true := by
  obtain ⟨⟨r, n, heq⟩, -⟩ := s.enterReset_cases cut
  rw [heq]

theorem State.leaveReset_inReset {s : State} (h : s.inReset = true) : s.leaveReset.inReset = false := by
  rw [State.leaveReset_asserted s h]

theorem State.serve_access_of_inReset {s : State} (h : s.inReset = true) (d : Desc) (v : Word) :
    s.serve (.access d v) = s.respond .idle := by
  simp only [State.serve, h]
  rfl

theorem State.respond_takeInput_sameElements (s : State) (r : Response) (rest : List Input) :
    SameElements ((s.respond r).takeInput rest) s :=
  ⟨⟨rfl, ⟨rfl, rfl, rfl, rfl, rfl, rfl⟩, ⟨rfl, rfl⟩⟩, rfl⟩

/-- Settles O12: whatever was cut short, asserting reset leaves the reset values; an access during reset changes the
answer only; a release restores the reset values; and no instruction touches the reset input. -/
theorem resetInputGivesTheResetValues : Obligations.ResetInputGivesTheResetValues := by
  refine ⟨fun s cut rest hin => ?_, fun s d v rest hin hreset => ?_, fun s rest hin hreset => ?_,
    fun i s t hst => (exec_keeps_interface i s t hst).inReset⟩
  · refine ⟨_, step_of_inputs_cons hin, s.enterReset_inReset cut, rfl, fun cut' t' hst => ?_⟩
    obtain rfl := Host.Outcome.next.inj ((step_of_inputs_cons rfl).symm.trans hst)
    exact ((State.enterReset_atResetValues s cut).takeInput rest).sameElements
      ((State.enterReset_atResetValues _ cut').takeInput rest)
  · refine ⟨_, step_of_inputs_cons hin, ?_⟩
    rw [State.serve_access_of_inReset hreset]
    exact ⟨s.respond_takeInput_sameElements .idle rest, hreset, rfl, rfl⟩
  · exact ⟨_, step_of_inputs_cons hin, (State.leaveReset_atResetValues hreset).takeInput rest,
      State.leaveReset_inReset hreset, rfl⟩

/-! ### What the reset state means -/

/-- After reset MIX_OUT reads the mix of 0, and STATUS its length match alone. -/
theorem answers_reset_mixOut_status : answers [⟨0x3018, 0⟩, ⟨0x3008, 0⟩] State.reset = [.data 0, .data 1] := by
  have hreads : answers [⟨0x3018, 0⟩, ⟨0x3008, 0⟩] State.reset =
      [.data (mix Config.inst 0), .data State.reset.statusWord] := answers_reads (by decide) rfl
  have hstatus : State.reset.statusWord = 1 := rfl
  rw [hreads, mix_zero, hstatus]

/-- A number of bytes that is not 0 and does not make COUNT come round is not counted as 0. -/
theorem ofNat_beq_zero_of_lt {n : Nat} (hpos : 0 < n) (hlt : n < 2 ^ 64) : (BitVec.ofNat 64 n == 0) = false := by
  rw [beq_eq_false_iff_ne, ne_eq, ← BitVec.toNat_inj, BitVec.toNat_ofNat, Nat.mod_eq_of_lt hlt]
  exact hpos.ne'

/-- Settles O60: the reset state has an empty tail, so bytes written give their digest from the reset accumulator, that
of seed 0 and length 0; and its RNG elements are those of a seeding with 0. -/
theorem resetStateMeaning : Obligations.ResetStateMeaning := by
  refine ⟨answers_reset_mixOut_status, fun bs => ?_, fun ts hts => ?_⟩
  · obtain ⟨hresp, hmatch, -⟩ :=
      afterAll_writes_readHashDigest (s := State.reset) rfl rfl rfl (carriedBy_hwriteTxns bs)
    refine ⟨_, runTxns_eq _ State.reset rfl, hresp, ?_, fun hpos hlt => ?_⟩
    · rintro rfl
      exact hresp
    · exact hmatch.trans (ofNat_beq_zero_of_lt hpos hlt)
  · obtain ⟨-, -, hseed⟩ := resetStateHoldsTheResetValues
    obtain ⟨t, ht, hrng⟩ := hseed State.reset
    have hafter : afterAll [⟨0xB060, 0⟩] State.reset = t := after_eq_of_exec ht
    refine ⟨_, runTxns_eq _ State.reset rfl, ?_⟩
    rw [answers_takeInput, hafter]
    exact answers_congr_rng hts rfl (exec_keeps_interface _ _ t ht).inReset hrng

end Sys2Proof.Machine

/-! PROOFS. A step with nothing arriving (assumption 3): the block waits, and its state is kept. -/

namespace Sys2Proof.Machine

/-! ### The idle step -/

/-- Settles O10: of the step's branches, the one for no input. -/
theorem idleStepKeepsTheState : Obligations.IdleStepKeepsTheState := by
  intro s hin
  rw [step_of_inputs, hin]

end Sys2Proof.Machine
